-- ==== Sys2Proof/Word.lean ====
section
/-! DEFINITION. The words of the Flake ID block: every width the spec gives an operand, a register or a port
(spec/00_scope.md R6, spec/30_encoding.md R60). All values are unsigned (R15). -/

namespace Sys2Proof

/-- A table index, a table entry, a CRC value, a byte of an identifier: 8 bits. -/
abbrev Byte := BitVec 8

/-- The command word `CMD` (R60): 32 bits. -/
abbrev Word := BitVec 32

/-- The data operand `DIN`, the data result `DOUT`, an identifier (R40, R60): 96 bits, byte 0 most significant. -/
abbrev Data := BitVec 96

/-- A worker identity, and the operand `u24` of format W (R6, R61): 24 bits. -/
abbrev Word24 := BitVec 24

/-- A time-word: version, timestamp and counter (R6, R43): 64 bits. -/
abbrev TimeWord := BitVec 64

end Sys2Proof
end

