-- ==== Sys2Proof/Syntax.lean ====
section
/-! DEFINITION. What a host can write: the ten commands of spec/opcode_table.json, the command as it is presented at
the port, and the lines of the assembly language of spec/30_encoding.md R69 and R70. -/

namespace Sys2Proof

/-- The three formats of R61: which bits of `IMM` are an operand. -/
inductive Format where
  /-- N: no operand, `CMD[23:0]` reserved. -/
  | n
  /-- B: a byte operand in `CMD[7:0]`, `CMD[23:8]` reserved. -/
  | b
  /-- W: a 24-bit operand in `CMD[23:0]`, nothing reserved. -/
  | w
deriving DecidableEq, Repr

/-- The instruction set FLK-1, one constructor per row of spec/opcode_table.json (R64). The operand of a command
word stands here; the data operand `DIN` is presented beside the word and is no part of the decoded command (R68). -/
inductive Instr where
  /-- NOP (R140). -/
  | nop
  /-- TLOOK: read table entry `idx` (R84). -/
  | tlook (idx : Byte)
  /-- CRCINIT: start a byte-stream CRC (R85). -/
  | crcinit
  /-- CRCB: feed byte `b` into the byte-stream CRC (R86). -/
  | crcb (b : Byte)
  /-- CRCRD: read the byte-stream CRC (R87). -/
  | crcrd
  /-- CRC11: checksum of bytes 0 to 10 of `DIN` (R88). -/
  | crc11
  /-- SETWID: capture the worker identity `w` (R100). -/
  | setwid (w : Word24)
  /-- PACK: assemble an identifier with overflow counter `c` (R101). -/
  | pack (c : Byte)
  /-- RDID: read the identifier register (R102). -/
  | rdid
  /-- VALID: validate a candidate of length `len` (R120). -/
  | valid (len : Word24)
deriving DecidableEq, Repr

/-- One command as the host presents it (R60): the command word with its data operand. -/
structure Command where
  cmd : Word
  din : Data
deriving DecidableEq, Repr

/-- One line of assembly (R69, R70), its operands the numbers as written, so that an operand that does not fit its
field can be written down and refused. An omitted `din=` is the number 0. -/
inductive AsmLine where
  | nop
  | tlook (idx : Nat)
  | crcinit
  | crcb (b : Nat)
  | crcrd
  | crc11 (din : Nat)
  | setwid (w : Nat)
  | pack (c din : Nat)
  | rdid
  | valid (len din : Nat)
  /-- `.word 0xHHHHHHHH[, din=X]`: the given word, legal or not. -/
  | word (w din : Nat)
  /-- Pseudo-instruction `VALID12 din=X` (R70). -/
  | valid12 (din : Nat)
  /-- Pseudo-instruction `CRCSTR b_0, ..., b_{n-1}` (R70). -/
  | crcstr (bs : List Nat)
deriving DecidableEq, Repr

end Sys2Proof
end

