-- ==== Sys2Proof/Decode.lean ====
section
/-! DEFINITION. The decoder and the encoder of the command word (spec/30_encoding.md R60 to R68).
The command word is presented whole, in parallel (R60): no byte order applies to it. Decoding reads the word alone,
never `DIN` or the state (R68). -/

namespace Sys2Proof

/-- `OPC = CMD[31:24]` (R61). -/
def opcOf (w : Word) : Byte := w.extractLsb' 24 8

/-- `IMM = CMD[23:0]` (R61); all of it is the operand `u24` of format W. -/
def immOf (w : Word) : Word24 := w.extractLsb' 0 24

/-- `b8 = CMD[7:0]`, the operand of format B (R61). -/
def b8Of (w : Word) : Byte := w.extractLsb' 0 8

/-- R61: the reserved bits of a format are all 0. -/
def reservedClear : Format → Word → Bool
  | .n, w => immOf w == 0#24
  | .b, w => w.extractLsb' 8 16 == 0#16
  | .w, _ => true

/-- Why a word is illegal: R66 (a) or R66 (b). -/
inductive Illegal where
  /-- `OPC` is not in R64's table. -/
  | unassignedOpcode
  /-- `OPC` is assigned and a reserved bit of its format is `1`. -/
  | reservedBits
deriving DecidableEq, Repr

/-- What the decoder makes of a word (R68): exactly one of the ten commands with its operand, or ILLEGAL. -/
inductive Decoded where
  | command (i : Instr)
  | illegal (why : Illegal)
deriving DecidableEq, Repr

/-- The opcode map of R64: the format of an assigned opcode, and the command its operand makes. -/
def lookupOpcode (opc : Byte) : Option (Format × (Word → Instr)) :=
  if opc = 0x00#8 then some (.n, fun _ => .nop)
  else if opc = 0x01#8 then some (.b, fun w => .tlook (b8Of w))
  else if opc = 0x02#8 then some (.n, fun _ => .crcinit)
  else if opc = 0x03#8 then some (.b, fun w => .crcb (b8Of w))
  else if opc = 0x04#8 then some (.n, fun _ => .crcrd)
  else if opc = 0x05#8 then some (.n, fun _ => .crc11)
  else if opc = 0x10#8 then some (.w, fun w => .setwid (immOf w))
  else if opc = 0x11#8 then some (.b, fun w => .pack (b8Of w))
  else if opc = 0x12#8 then some (.n, fun _ => .rdid)
  else if opc = 0x20#8 then some (.w, fun w => .valid (immOf w))
  else none

/-- The decoder, in the check order of R68: look up `OPC`; if unassigned, ILLEGAL; otherwise, if a reserved bit is
set, ILLEGAL; otherwise the command. -/
def decode (w : Word) : Decoded :=
  match lookupOpcode (opcOf w) with
  | none => .illegal .unassignedOpcode
  | some (fmt, make) => if reservedClear fmt w then .command (make w) else .illegal .reservedBits

/-- A word of format N (R61). -/
def formN (opc : Byte) : Word := opc ++ 0#24

/-- A word of format B (R61). -/
def formB (opc : Byte) (b8 : Byte) : Word := opc ++ 0#16 ++ b8

/-- A word of format W (R61). -/
def formW (opc : Byte) (u24 : Word24) : Word := opc ++ u24

/-- The word of a command, from the opcode and format columns of R64. -/
def encode : Instr → Word
  | .nop => formN 0x00#8
  | .tlook idx => formB 0x01#8 idx
  | .crcinit => formN 0x02#8
  | .crcb b => formB 0x03#8 b
  | .crcrd => formN 0x04#8
  | .crc11 => formN 0x05#8
  | .setwid w => formW 0x10#8 w
  | .pack c => formB 0x11#8 c
  | .rdid => formN 0x12#8
  | .valid len => formW 0x20#8 len

/-- One row of R64's table: a word is the row's instruction exactly when `CMD & mask = match`. -/
structure Row where
  mnemonic : String
  format : Format
  matchBits : Word
  maskBits : Word
deriving DecidableEq, Repr

/-- R64's table, row by row, its match and mask columns as written there and in spec/opcode_table.json. -/
def opcodeTable : List Row :=
  [⟨"NOP", .n, 0x00000000#32, 0xFFFFFFFF#32⟩,
   ⟨"TLOOK", .b, 0x01000000#32, 0xFFFFFF00#32⟩,
   ⟨"CRCINIT", .n, 0x02000000#32, 0xFFFFFFFF#32⟩,
   ⟨"CRCB", .b, 0x03000000#32, 0xFFFFFF00#32⟩,
   ⟨"CRCRD", .n, 0x04000000#32, 0xFFFFFFFF#32⟩,
   ⟨"CRC11", .n, 0x05000000#32, 0xFFFFFFFF#32⟩,
   ⟨"SETWID", .w, 0x10000000#32, 0xFF000000#32⟩,
   ⟨"PACK", .b, 0x11000000#32, 0xFFFFFF00#32⟩,
   ⟨"RDID", .n, 0x12000000#32, 0xFFFFFFFF#32⟩,
   ⟨"VALID", .w, 0x20000000#32, 0xFF000000#32⟩]

/-- `CMD & mask = match` (R64). -/
def Row.covers (r : Row) (w : Word) : Bool := w &&& r.maskBits == r.matchBits

/-- The mnemonic of a command (R64). -/
def mnemonicOf : Instr → String
  | .nop => "NOP"
  | .tlook _ => "TLOOK"
  | .crcinit => "CRCINIT"
  | .crcb _ => "CRCB"
  | .crcrd => "CRCRD"
  | .crc11 => "CRC11"
  | .setwid _ => "SETWID"
  | .pack _ => "PACK"
  | .rdid => "RDID"
  | .valid _ => "VALID"

/-- The command word of `nbits` bits of `w`, bit 0 the least significant, the bits above `nbits` zero. -/
def tableWord (nbits w : Nat) : Word := BitVec.ofNat 32 (w % 2 ^ nbits)

/-- The instruction the decoder reads from a row's word, numbered as spec/opcode_table.json numbers its bits. A
command word is 32 bits (R60), so a longer one is none. -/
def decodeTableWord (nbits w : Nat) : Option Instr :=
  if nbits ≤ 32 then
    match decode (tableWord nbits w) with
    | .command i => some i
    | .illegal _ => none
  else none

end Sys2Proof
end

