-- ==== Sys2Proof/Config.lean ====
section
/-! DEFINITION. The implementation parameters of the block (spec/00_scope.md R6 to R9).
The four CRC parameters are OPEN (R7, decision D5): `Config` holds them, every definition that uses the CRC takes
them as an argument, and the machine's state carries them in a field that no step writes
(notes/assumptions/1.md). `CMD_LATENCY` (R9) has no place here: no rule depends on it and a model gives a command no
duration (R12, R178). -/

namespace Sys2Proof

/-- The CRC-8 parameters of R7. The source names none of them, so every statement of the model about a CRC value
holds for all of them. -/
structure Config where
  /-- `CRC_POLY`: the generator polynomial without its x^8 term, MSB-first notation. -/
  crcPoly : Byte
  /-- `CRC_REFLECT`: `false` for the table form of R80, `true` for the form of R81. -/
  crcReflect : Bool
  /-- `CRC_INIT`: the CRC register before the first byte. -/
  crcInit : Byte
  /-- `CRC_XOROUT`: XORed into the CRC register to form the result. -/
  crcXorOut : Byte
deriving DecidableEq, Repr

/-- The defaults of R7 (`0x07`, `0`, `0x00`, `0x00`), under which every vector of spec/95_test_vectors.md holds. -/
def Config.default : Config :=
  { crcPoly := 0x07#8, crcReflect := false, crcInit := 0x00#8, crcXorOut := 0x00#8 }

/-- `VERSION` (R3, R9): the one identifier version, fixed. -/
def Config.version : BitVec 4 := 0x1#4

/-- `ID_LEN` (R9): an identifier's length in bytes, fixed, as wide as VALID's length operand (`LEN_W` = 24). -/
def Config.idLen : Word24 := 12#24

end Sys2Proof
end

