-- ==== Sys2Proof/Machine/State.lean ====
section
/-! DEFINITION. The state of one Flake ID block (spec/10_state.md R20 to R26, spec/70_reset_and_hazards.md R170) with
its parameters and its port, and the reasons a step can stop. -/

namespace Sys2Proof.Machine

/-- The seven response statuses of R150; `Status.code` gives each its 4-bit code. -/
inductive Status where
  /-- Command done. -/
  | ok
  /-- Command word unassigned or reserved bits set. -/
  | illegal
  /-- Worker identity already captured since reset. -/
  | locked
  /-- Worker identity not yet captured. -/
  | nowid
  /-- Wrong length, with the observed length. -/
  | elen
  /-- Version mismatch, with the observed value. -/
  | ever
  /-- Checksum mismatch, with the expected and observed values. -/
  | ecrc
deriving DecidableEq, Repr

/-- The response of one command (R26): the status `ST` and the data result `DOUT`. -/
structure Response where
  st : Status
  dout : Data
deriving DecidableEq, Repr

/-- What the host does at the block's port. -/
inductive HostInput where
  /-- It presents one command (R10, R60). -/
  | command (c : Command)
  /-- It drives the reset line: asserted (`true`) or released (`false`) (R170, R172). -/
  | resetLine (asserted : Bool)
deriving DecidableEq, Repr

/-- One block.

`acc`, `wid`, `widv`, `idr` are the tuple `S` of R20. The table `TBL` of R21 is a constant ROM whose contents are a
function of `cfg` alone; `cfg` is held here and `State.tbl` (Machine/Ops.lean) reads the entry, so that no state can
hold a table its parameters do not give. No step writes `cfg`.

`inReset`, `inputs` and `responses` are the port, not registers of the block: the level of the reset line, what the
host presents and has not been consumed yet (oldest first), and the responses already returned to the host (newest
first). No command reads `responses` (R26). -/
structure State where
  /-- The parameters of R7, fixed. -/
  cfg : Config
  /-- `S.ACC`: the running CRC of a byte stream, before the final XOR (R22). -/
  acc : Byte
  /-- `S.WID`: the worker identity (R23). -/
  wid : Word24
  /-- `S.WIDV`: the worker identity has been captured (R24). -/
  widv : Bool
  /-- `S.IDR`: the identifier register, byte 0 in bits 95:88 (R25). -/
  idr : Data
  /-- The reset line is asserted (R172). -/
  inReset : Bool
  /-- What the host presents, oldest first (R52). -/
  inputs : List HostInput
  /-- The responses returned so far, newest first (R26). -/
  responses : List Response
deriving DecidableEq, Repr

/-- Why the machine stops with a fault: never. The block has no trap, no stuck state and no fault of its own; every
command word has a defined response (R11, R141, R151). Safe: nothing raises it. -/
inductive Fault where
deriving DecidableEq, Repr

/-- Why a step is refused. -/
inductive Refusal where
  /-- An instruction without a meaning; raised by nothing: every constructor of `Instr` has its meaning. Safe. -/
  | notModelled (mnemonic : String)
  /-- Raised by `step` at the configuration boundary: the block was given `CRC_POLY = 0x00`, which R8 refuses and R11
  names as the only refusal. Safe. -/
  | configRefused
deriving DecidableEq, Repr

/-- The block right after reset under the parameters `cfg` (R170), its reset line released, nothing presented and
nothing returned yet. -/
def State.resetWith (cfg : Config) : State :=
  { cfg := cfg
    acc := cfg.crcInit
    wid := 0x000000#24
    widv := false
    idr := 0#96
    inReset := false
    inputs := []
    responses := [] }

/-- The block right after reset (R170) under the default parameters of R7. -/
def State.reset : State := State.resetWith Config.default

end Sys2Proof.Machine
end

