-- ==== Sys2Proof/Machine/Operands.lean ====
section
/-! DEFINITION. The operands of a command and the fields of an identifier (spec/20_memory.md R40 to R46,
spec/30_encoding.md R62, R63, R67). -/

namespace Sys2Proof.Machine

/-- `byte(v, k)` of R15 and R40: byte `k` of a value, byte 0 the most significant. Of a 96-bit value it is
`v[95-8k : 88-8k]` for `k` in 0..11; of the 88-bit `v88` of R101, `v88[87-8k : 80-8k]` for `k` in 0..10. -/
def byteOf {n : Nat} (v : BitVec n) (k : Nat) : Byte := v.extractLsb' (n - 8 - 8 * k) 8

/-- Bytes 0 to 10 in that order (R45): what the checksum of an identifier is computed over. -/
def bytes0to10 {n : Nat} (v : BitVec n) : List Byte := (List.range 11).map (byteOf v)

/-- All 12 bytes of a 96-bit value, byte 0 first (R40). -/
def bytes0to11 (v : Data) : List Byte := (List.range 12).map (byteOf v)

/-- Source bit `i` of an identifier (R14, R41): the source numbers bits from the most significant. -/
def sourceBit (v : Data) (i : Nat) : Bool := v.getLsbD (95 - i)

/-- The version nibble `V[95:92]` (R42). -/
def versionOf (v : Data) : BitVec 4 := v.extractLsb' 92 4

/-- The timestamp `V[91:40]` (R42). -/
def timestampOf (v : Data) : BitVec 52 := v.extractLsb' 40 52

/-- The overflow counter `V[39:32]` (R42). -/
def counterOf (v : Data) : Byte := v.extractLsb' 32 8

/-- The worker identity `V[31:8]` (R42). -/
def workerOf (v : Data) : Word24 := v.extractLsb' 8 24

/-- The checksum `V[7:0]`, which is byte 11 (R42). -/
def checksumOf (v : Data) : Byte := v.extractLsb' 0 8

/-- The time-word `V[95:32]` (R43). -/
def timeWordOf (v : Data) : TimeWord := v.extractLsb' 32 64

/-- `V` with `V[31:8]` replaced by `w`, bit for bit, the other bits kept (R46, R100). -/
def withWorker (v : Data) (w : Word24) : Data := v.extractLsb' 32 64 ++ w ++ v.extractLsb' 0 8

/-- `zext_96` of R15: the value zero-extended to the width of `DOUT`. -/
def zext96 {n : Nat} (v : BitVec n) : Data := v.setWidth 96

/-- PACK's timestamp operand `DIN[51:0]` (R63, R101): the bits above are ignored (R67). -/
def dinTimestamp (din : Data) : BitVec 52 := din.extractLsb' 0 52

/-- R121: the operand `len` the host presents for a candidate of `n` bytes: its length, or `0xFFFFFF` when that is
`0xFFFFFF` or more (so a wrong length never turns into 12). -/
def presentedLength (n : Nat) : Word24 := if 0xFFFFFF ≤ n then 0xFFFFFF#24 else BitVec.ofNat 24 n

/-- R63: the bits of `DIN` a command reads, as a mask. -/
def dinMask : Instr → Data
  | .nop => 0#96
  | .tlook _ => 0#96
  | .crcinit => 0#96
  | .crcb _ => 0#96
  | .crcrd => 0#96
  | .crc11 => 0xFFFFFFFFFFFFFFFFFFFFFF00#96
  | .setwid _ => 0#96
  | .pack _ => 0x00000000000FFFFFFFFFFFFF#96
  | .rdid => 0#96
  | .valid len => if len = Config.idLen then 0xFFFFFFFFFFFFFFFFFFFFFFFF#96 else 0#96

end Sys2Proof.Machine
end

