-- ==== Sys2Proof/Machine/Flags.lean ====
section
/-! DEFINITION. The status codes and the error details of a response (spec/60_exceptions.md R150). The block has no
condition flag but the status of a response (R27). -/

namespace Sys2Proof.Machine

/-- The 4-bit code of a status (R150). The codes `0x7` to `0xF` are never produced. -/
def Status.code : Status → BitVec 4
  | .ok => 0x0#4
  | .illegal => 0x1#4
  | .locked => 0x2#4
  | .nowid => 0x3#4
  | .elen => 0x4#4
  | .ever => 0x5#4
  | .ecrc => 0x6#4

/-- ELEN's detail: `DOUT[23:0]` the observed length (R120, R150). -/
def lengthDetail (len : Word24) : Data := zext96 len

/-- EVER's detail: `DOUT[11:8]` the expected version 1, `DOUT[3:0]` the observed one (R120, R150). -/
def versionDetail (observed : BitVec 4) : Data :=
  zext96 (Config.version ++ 0x0#4 ++ observed : BitVec 12)

/-- ECRC's detail: `DOUT[15:8]` the expected checksum, `DOUT[7:0]` the observed one (R120, R150). -/
def checksumDetail (expected observed : Byte) : Data := zext96 (expected ++ observed : BitVec 16)

end Sys2Proof.Machine
end

