-- ==== Sys2Proof/Machine/Ops.lean ====
section
/-! DEFINITION. The shared operations: the table ROM and the CRC function (spec/40_checksum_table.md R80 to R82), the
writes of the four state elements (spec/10_state.md R22 to R25), the response and the port (R26, R52), and reset
(spec/70_reset_and_hazards.md R170 to R172).

TAKING AN EXCEPTION. The block has no trap: an error is reported in the response that ends the command, nothing is
saved and no handler is entered, and there is no return (R151). `State.respond` is that one shared operation, for OK
and for every error. -/

namespace Sys2Proof.Machine

/-- `rev8` of R81: bit `j` moved to bit `7-j`. -/
def rev8 (p : Byte) : Byte := p.reverse

/-- One round of R80's loop: shift left, the old bit 7 dropped, and XOR `CRC_POLY` where it was 1. -/
def tableRoundMsb (poly c : Byte) : Byte :=
  if c.getLsbD 7 then (c <<< 1) ^^^ poly else c <<< 1

/-- One round of R81's loop: shift right, and XOR the bit-reversed polynomial where bit 0 was 1. -/
def tableRoundLsb (poly c : Byte) : Byte :=
  if c.getLsbD 0 then (c >>> 1) ^^^ rev8 poly else c >>> 1

/-- `repeat k times` of R80 and R81. -/
def repeatRounds (round : Byte → Byte) : Nat → Byte → Byte
  | 0, c => c
  | k + 1, c => repeatRounds round k (round c)

/-- `TBL[i]` (R21, R80, R81): computed from the configured parameters, never listed (R83). -/
def tableEntry (cfg : Config) (i : Byte) : Byte :=
  if cfg.crcReflect then repeatRounds (tableRoundLsb cfg.crcPoly) 8 i
  else repeatRounds (tableRoundMsb cfg.crcPoly) 8 i

/-- A read of the block's table ROM (R21, R47): every 8-bit index is in range. -/
def State.tbl (s : State) (i : Byte) : Byte := tableEntry s.cfg i

/-- The byte update `c <- TBL[c ^ b]` of R82. -/
def crcUpdate (cfg : Config) (c b : Byte) : Byte := tableEntry cfg (c ^^^ b)

/-- The CRC register after the bytes `bs`, first byte first, from the value `c` (the loop of R82). -/
def crcRegister (cfg : Config) (c : Byte) : List Byte → Byte
  | [] => c
  | b :: bs => crcRegister cfg (crcUpdate cfg c b) bs

/-- The final XOR of R82. -/
def crcFinish (cfg : Config) (c : Byte) : Byte := c ^^^ cfg.crcXorOut

/-- `CRC8(b_0, ..., b_{n-1})` of R82. -/
def crc8 (cfg : Config) (bs : List Byte) : Byte := crcFinish cfg (crcRegister cfg cfg.crcInit bs)

/-- The checksum of bytes 0 to 10 (R45, R82). -/
def checksum {n : Nat} (cfg : Config) (v : BitVec n) : Byte := crc8 cfg (bytes0to10 v)

/-- The data operand of the command at the port (R60). With no command there it is 0, as for an omitted `din=`
(R69). -/
def State.din (s : State) : Data :=
  match s.inputs with
  | .command c :: _ => c.din
  | .resetLine _ :: _ => 0#96
  | [] => 0#96

/-- The oldest thing presented has been consumed (R52). -/
def State.takeInput (s : State) : State := { s with inputs := s.inputs.tail }

/-- `respond(st, d)` of R15: the command at the port is consumed and its one response is returned (R10, R26). Nothing
of `S` is written: an error is a normal response (R151). -/
def State.respond (s : State) (st : Status) (d : Data) : State :=
  { s.takeInput with responses := ⟨st, d⟩ :: s.responses }

/-- `S.ACC <- a` (R22). -/
def State.writeAcc (s : State) (a : Byte) : State := { s with acc := a }

/-- An accepted SETWID's writes (R23 to R25, R100): `S.WID`, `S.WIDV` and `S.IDR[31:8]`. -/
def State.captureWid (s : State) (w : Word24) : State :=
  { s with wid := w, widv := true, idr := withWorker s.idr w }

/-- `S.IDR <- id` (R25). -/
def State.writeIdr (s : State) (id : Data) : State := { s with idr := id }

/-- Every state element at its reset value (R170); the table, and so `cfg`, is unchanged (R21). -/
def State.applyReset (s : State) : State :=
  { s with acc := s.cfg.crcInit, wid := 0x000000#24, widv := false, idr := 0#96 }

/-- The host drives the reset line. While it is asserted the state elements hold their reset values; releasing it
changes none of them (R170, R172). -/
def State.driveReset (s : State) (asserted : Bool) : State :=
  if asserted then { s.applyReset.takeInput with inReset := true }
  else { s.takeInput with inReset := false }

/-- The host presents one more thing, after all it presented before (R52). -/
def State.present (s : State) (x : HostInput) : State := { s with inputs := s.inputs ++ [x] }

end Sys2Proof.Machine
end

