-- ==== Sys2Proof/Machine/Checksum.lean ====
section
/-! DEFINITION. The table and CRC commands (spec/40_checksum_table.md R84 to R88). -/

namespace Sys2Proof.Machine

/-- TLOOK (R84): read one table entry. -/
def execTlook (idx : Byte) (s : State) : Host.Outcome State Fault Refusal :=
  .next (s.respond .ok (zext96 (s.tbl idx)))

/-- CRCINIT (R85): `S.ACC <- CRC_INIT`. -/
def execCrcinit (s : State) : Host.Outcome State Fault Refusal :=
  .next ((s.writeAcc s.cfg.crcInit).respond .ok 0#96)

/-- CRCB (R86): `S.ACC` keeps the raw register, the response has the final XOR applied. -/
def execCrcb (b : Byte) (s : State) : Host.Outcome State Fault Refusal :=
  let a := s.tbl (s.acc ^^^ b)
  .next ((s.writeAcc a).respond .ok (zext96 (crcFinish s.cfg a)))

/-- CRCRD (R87): the finished CRC of the stream so far. -/
def execCrcrd (s : State) : Host.Outcome State Fault Refusal :=
  .next (s.respond .ok (zext96 (crcFinish s.cfg s.acc)))

/-- CRC11 (R88): the CRC of bytes 0 to 10 of `DIN`; `S.ACC` is not touched. -/
def execCrc11 (s : State) : Host.Outcome State Fault Refusal :=
  .next (s.respond .ok (zext96 (checksum s.cfg s.din)))

end Sys2Proof.Machine
end

