-- ==== Sys2Proof/Machine/Packer.lean ====
section
/-! DEFINITION. Worker identity and identifier packer (spec/41_packer.md R100 to R102). -/

namespace Sys2Proof.Machine

/-- SETWID (R100): capture the worker identity once per reset; LOCKED afterwards. -/
def execSetwid (w : Word24) (s : State) : Host.Outcome State Fault Refusal :=
  if s.widv then .next (s.respond .locked 0#96)
  else .next ((s.captureWid w).respond .ok 0#96)

/-- `tw` of R101: version, timestamp, counter. -/
def packTimeWord (ts : BitVec 52) (c : Byte) : TimeWord := Config.version ++ ts ++ c

/-- `id` of R101: `v88 = {tw, WID}` and the checksum of its bytes 0 to 10 below it. -/
def packIdentifier (cfg : Config) (tw : TimeWord) (wid : Word24) : Data :=
  let v88 : BitVec 88 := tw ++ wid
  v88 ++ checksum cfg v88

/-- PACK (R101): assemble one identifier; NOWID before the worker identity is captured. -/
def execPack (c : Byte) (s : State) : Host.Outcome State Fault Refusal :=
  if s.widv then
    let id := packIdentifier s.cfg (packTimeWord (dinTimestamp s.din) c) s.wid
    .next ((s.writeIdr id).respond .ok id)
  else .next (s.respond .nowid 0#96)

/-- RDID (R102): a copy of the identifier register. -/
def execRdid (s : State) : Host.Outcome State Fault Refusal :=
  .next (s.respond .ok s.idr)

end Sys2Proof.Machine
end

