-- ==== Sys2Proof/Machine/System.lean ====
section
/-! DEFINITION. No-operation and illegal commands (spec/43_system.md R140, R141). -/

namespace Sys2Proof.Machine

/-- NOP (R140). -/
def execNop (s : State) : Host.Outcome State Fault Refusal :=
  .next (s.respond .ok 0#96)

/-- An illegal command word (R141): status ILLEGAL, no state written, `DIN` not read; the block goes on. -/
def execIllegal (s : State) : Host.Outcome State Fault Refusal :=
  .next (s.respond .illegal 0#96)

end Sys2Proof.Machine
end

