-- ==== Sys2Proof/Machine/Validator.lean ====
section
/-! DEFINITION. The checksum validator (spec/42_validator.md R120 to R125). -/

namespace Sys2Proof.Machine

/-- The response of VALID (R120): length, then version, then checksum, the first failure reported (R123, R154).
`DIN` is looked at only when the length is 12 (R121). -/
def validate (cfg : Config) (len : Word24) (din : Data) : Response :=
  if len ≠ Config.idLen then ⟨.elen, lengthDetail len⟩
  else if versionOf din ≠ Config.version then ⟨.ever, versionDetail (versionOf din)⟩
  else if checksum cfg din ≠ byteOf din 11 then ⟨.ecrc, checksumDetail (checksum cfg din) (byteOf din 11)⟩
  else ⟨.ok, 0#96⟩

/-- VALID (R120): no state is written. -/
def execValid (len : Word24) (s : State) : Host.Outcome State Fault Refusal :=
  let r := validate s.cfg len s.din
  .next (s.respond r.st r.dout)

end Sys2Proof.Machine
end

