-- ==== Sys2Proof/Machine/Dispatch.lean ====
section
/-! DEFINITION. The instruction at the port, executed: one arm per constructor of `Instr`. -/

namespace Sys2Proof.Machine

def exec (i : Instr) (s : State) : Host.Outcome State Fault Refusal :=
  match i with
  | .nop => Sys2Proof.Machine.execNop s
  | .tlook idx => Sys2Proof.Machine.execTlook idx s
  | .crcinit => Sys2Proof.Machine.execCrcinit s
  | .crcb b => Sys2Proof.Machine.execCrcb b s
  | .crcrd => Sys2Proof.Machine.execCrcrd s
  | .crc11 => Sys2Proof.Machine.execCrc11 s
  | .setwid w => Sys2Proof.Machine.execSetwid w s
  | .pack c => Sys2Proof.Machine.execPack c s
  | .rdid => Sys2Proof.Machine.execRdid s
  | .valid len => Sys2Proof.Machine.execValid len s

end Sys2Proof.Machine
end

