-- ==== Sys2Proof/WellFormed.lean ====
section
/-! DEFINITION. The checks of the spec on what is given to the block: a configuration (R8), a command word (R66) and a
line of assembly (R69). An `Instr` needs no check: the type of each operand is its field (R61), so every term of
`Instr` is a command some word encodes. -/

namespace Sys2Proof

/-- R8: a configuration with `CRC_POLY = 0x00` is refused; every other is accepted. -/
def Config.accepted (c : Config) : Bool := c.crcPoly != 0#8

/-- R66 read as a check on words: (a) `OPC` lies in none of the unassigned ranges `0x06`-`0x0F`, `0x13`-`0x1F`,
`0x21`-`0xFF`; (b) the reserved bits of the opcode's format are zero: none for SETWID and VALID (format W),
`CMD[23:8]` for TLOOK, CRCB and PACK (format B), `CMD[23:0]` for the others (format N). Written from R66 and R64's
format column, not from the decoder; that the two agree is a statement of its own. -/
def wordLegal (w : Word) : Bool :=
  let opc := (w >>> 24).toNat
  if (0x06 ≤ opc ∧ opc ≤ 0x0F) ∨ (0x13 ≤ opc ∧ opc ≤ 0x1F) ∨ 0x21 ≤ opc then false
  else if opc = 0x10 ∨ opc = 0x20 then true
  else if opc = 0x01 ∨ opc = 0x03 ∨ opc = 0x11 then w &&& 0x00FFFF00#32 == 0#32
  else w &&& 0x00FFFFFF#32 == 0#32

/-- R69: "An assembler refuses an operand that does not fit its field." -/
def AsmLine.wf : AsmLine → Bool
  | .nop | .crcinit | .crcrd | .rdid => true
  | .tlook idx => decide (idx < 256)
  | .crcb b => decide (b < 256)
  | .crc11 din => decide (din < 2 ^ 96)
  | .setwid w => decide (w < 2 ^ 24)
  | .pack c din => decide (c < 256) && decide (din < 2 ^ 96)
  | .valid len din => decide (len < 2 ^ 24) && decide (din < 2 ^ 96)
  | .word w din => decide (w < 2 ^ 32) && decide (din < 2 ^ 96)
  | .valid12 din => decide (din < 2 ^ 96)
  | .crcstr bs => bs.all fun b => decide (b < 256)

end Sys2Proof
end

