-- ==== Sys2Proof/Machine/Port.lean ====
section
/-! DEFINITION. What the block does with what the host presents (spec/00_scope.md R10, R11; spec/20_memory.md R51 to
R54; spec/70_reset_and_hazards.md R170 to R172). The block has no program counter and fetches nothing (R27, R54): the
oldest thing presented at the port is what it consumes. -/

namespace Sys2Proof.Machine

/-- One command presented outside reset: decode the word, then execute it (R68, R141, R153). -/
def runWord (w : Word) (s : State) : Host.Outcome State Fault Refusal :=
  match decode w with
  | .command i => exec i s
  | .illegal _ => execIllegal s

/-- The oldest thing presented is consumed. With nothing presented the block waits, its state unchanged (R159). While
reset is asserted a command is not executed and gets no response (R172). -/
def runPort (s : State) : Host.Outcome State Fault Refusal :=
  match s.inputs with
  | [] => .next s
  | .resetLine asserted :: _ => .next (s.driveReset asserted)
  | .command c :: _ => if s.inReset then .next s.takeInput else runWord c.cmd s

/-- `s` with the command `c` presented before everything else and the reset line released, so that it is executed
next. -/
def State.presentNext (s : State) (c : Command) : State :=
  { s with inReset := false, inputs := .command c :: s.inputs }

end Sys2Proof.Machine
end

