-- ==== Sys2Proof/Machine/Step.lean ====
section
/-! DEFINITION. One step of the block (spec/00_scope.md R10, R11). -/

namespace Sys2Proof.Machine

/-- One step. A configuration that breaks R8 is refused (R11); otherwise the block consumes the oldest thing the host
presents. -/
def step (s : State) : Host.Outcome State Fault Refusal :=
  if s.cfg.accepted then runPort s else .refused .configRefused

/-- `s` with the word of `nbits` bits of `w` presented next, its data operand 0 (R69). The block fetches nothing (R54):
this stands for the host presenting a command (notes/assumptions/5.md). -/
def State.withFetchWord (s : State) (nbits w : Nat) : State := s.presentNext ⟨tableWord nbits w, 0#96⟩

end Sys2Proof.Machine
end

