-- ==== Sys2Proof/Machine/Assembler.lean ====
section
/-! DEFINITION. The assembler of spec/30_encoding.md R69 and R70: from the text of a line to the commands it presents.
Characters stand in lists, so that a line can be read by structural recursion. What R69 leaves open of the text (blanks,
the case of hexadecimal digits) is in notes/assumptions/9.md. -/

namespace Sys2Proof.Machine

/-- An operand as a data operand `DIN` of 96 bits. -/
def dinOfNat (x : Nat) : Data := BitVec.ofNat 96 x

/-- The commands of a line whose operands fit (R69's table, R70's expansions), in the order they are presented. -/
def expand : AsmLine → List Command
  | .nop => [⟨encode .nop, 0#96⟩]
  | .tlook idx => [⟨encode (.tlook (BitVec.ofNat 8 idx)), 0#96⟩]
  | .crcinit => [⟨encode .crcinit, 0#96⟩]
  | .crcb b => [⟨encode (.crcb (BitVec.ofNat 8 b)), 0#96⟩]
  | .crcrd => [⟨encode .crcrd, 0#96⟩]
  | .crc11 din => [⟨encode .crc11, dinOfNat din⟩]
  | .setwid w => [⟨encode (.setwid (BitVec.ofNat 24 w)), 0#96⟩]
  | .pack c din => [⟨encode (.pack (BitVec.ofNat 8 c)), dinOfNat din⟩]
  | .rdid => [⟨encode .rdid, 0#96⟩]
  | .valid len din => [⟨encode (.valid (BitVec.ofNat 24 len)), dinOfNat din⟩]
  | .word w din => [⟨BitVec.ofNat 32 w, dinOfNat din⟩]
  | .valid12 din => [⟨encode (.valid 12#24), dinOfNat din⟩]
  | .crcstr bs => ⟨encode .crcinit, 0#96⟩ :: bs.map fun b => ⟨encode (.crcb (BitVec.ofNat 8 b)), 0#96⟩

/-- The assembler: an operand that does not fit its field is refused (R69). -/
def assemble (l : AsmLine) : Option (List Command) := if l.wf then some (expand l) else none

/-- A blank between the parts of a line. -/
def isBlank (c : Char) : Bool := c == ' ' || c == '\t'

/-- Blanks removed at the front. -/
def dropBlanks : List Char → List Char
  | [] => []
  | c :: cs => if isBlank c then dropBlanks cs else c :: cs

/-- Blanks removed at both ends. -/
def trimBlanks (cs : List Char) : List Char := (dropBlanks (dropBlanks cs).reverse).reverse

/-- The characters before the first blank, and the rest. -/
def takeWord : List Char → List Char × List Char
  | [] => ([], [])
  | c :: cs => if isBlank c then ([], cs) else (c :: (takeWord cs).1, (takeWord cs).2)

/-- The pieces between the commas, at least one. -/
def splitCommas : List Char → List (List Char)
  | [] => [[]]
  | c :: cs =>
    if c == ',' then [] :: splitCommas cs
    else
      match splitCommas cs with
      | p :: ps => (c :: p) :: ps
      | [] => [[c]]

/-- The value of a decimal digit. -/
def decDigit (c : Char) : Option Nat :=
  if 48 ≤ c.toNat ∧ c.toNat ≤ 57 then some (c.toNat - 48) else none

/-- The value of a hexadecimal digit, of either case. -/
def hexDigit (c : Char) : Option Nat :=
  if 48 ≤ c.toNat ∧ c.toNat ≤ 57 then some (c.toNat - 48)
  else if 65 ≤ c.toNat ∧ c.toNat ≤ 70 then some (c.toNat - 55)
  else if 97 ≤ c.toNat ∧ c.toNat ≤ 102 then some (c.toNat - 87)
  else none

/-- The number a row of digits writes, most significant first, above the value `acc` read so far. -/
def readDigits (digit : Char → Option Nat) (base : Nat) : Nat → List Char → Option Nat
  | acc, [] => some acc
  | acc, c :: cs =>
    match digit c with
    | some d => readDigits digit base (acc * base + d) cs
    | none => none

/-- R69: numbers are decimal or `0x`-prefixed hexadecimal and unsigned; at least one digit. -/
def readNumber : List Char → Option Nat
  | [] => none
  | ['0', 'x'] => none
  | '0' :: 'x' :: ds => readDigits hexDigit 16 0 ds
  | ds => readDigits decDigit 10 0 ds

/-- One operand of a line: a number, or a data operand `din=<number>`. -/
inductive Operand where
  | num (n : Nat)
  | din (n : Nat)
deriving DecidableEq, Repr

/-- An operand from its text. -/
def readOperand (cs : List Char) : Option Operand :=
  match trimBlanks cs with
  | 'd' :: 'i' :: 'n' :: '=' :: ds =>
    match readNumber ds with
    | some n => some (.din n)
    | none => none
  | ds =>
    match readNumber ds with
    | some n => some (.num n)
    | none => none

/-- The operands from the pieces between the commas: all of them must read. -/
def readOperands : List (List Char) → Option (List Operand)
  | [] => some []
  | p :: ps =>
    match readOperand p, readOperands ps with
    | some o, some os => some (o :: os)
    | _, _ => none

/-- The numbers of a list of operands that holds no `din=`. -/
def onlyNumbers : List Operand → Option (List Nat)
  | [] => some []
  | .num n :: os =>
    match onlyNumbers os with
    | some ns => some (n :: ns)
    | none => none
  | .din _ :: _ => none

/-- The line a mnemonic and its operands make (R69's and R70's tables); an omitted `din=` is 0. -/
def makeLine (m : List Char) (os : List Operand) : Option AsmLine :=
  if m = ['N', 'O', 'P'] then
    match os with
    | [] => some .nop
    | _ => none
  else if m = ['T', 'L', 'O', 'O', 'K'] then
    match os with
    | [.num idx] => some (.tlook idx)
    | _ => none
  else if m = ['C', 'R', 'C', 'I', 'N', 'I', 'T'] then
    match os with
    | [] => some .crcinit
    | _ => none
  else if m = ['C', 'R', 'C', 'B'] then
    match os with
    | [.num b] => some (.crcb b)
    | _ => none
  else if m = ['C', 'R', 'C', 'R', 'D'] then
    match os with
    | [] => some .crcrd
    | _ => none
  else if m = ['C', 'R', 'C', '1', '1'] then
    match os with
    | [] => some (.crc11 0)
    | [.din x] => some (.crc11 x)
    | _ => none
  else if m = ['S', 'E', 'T', 'W', 'I', 'D'] then
    match os with
    | [.num w] => some (.setwid w)
    | _ => none
  else if m = ['P', 'A', 'C', 'K'] then
    match os with
    | [.num c] => some (.pack c 0)
    | [.num c, .din t] => some (.pack c t)
    | _ => none
  else if m = ['R', 'D', 'I', 'D'] then
    match os with
    | [] => some .rdid
    | _ => none
  else if m = ['V', 'A', 'L', 'I', 'D'] then
    match os with
    | [.num len] => some (.valid len 0)
    | [.num len, .din x] => some (.valid len x)
    | _ => none
  else if m = ['.', 'w', 'o', 'r', 'd'] then
    match os with
    | [.num w] => some (.word w 0)
    | [.num w, .din x] => some (.word w x)
    | _ => none
  else if m = ['V', 'A', 'L', 'I', 'D', '1', '2'] then
    match os with
    | [] => some (.valid12 0)
    | [.din x] => some (.valid12 x)
    | _ => none
  else if m = ['C', 'R', 'C', 'S', 'T', 'R'] then
    match onlyNumbers os with
    | some bs => some (.crcstr bs)
    | none => none
  else none

/-- A line of assembly from its text: the mnemonic, then its operands separated by commas (R69). -/
def parseLine (text : List Char) : Option AsmLine :=
  let parts := takeWord (dropBlanks text)
  if (dropBlanks parts.2).isEmpty then makeLine parts.1 []
  else
    match readOperands (splitCommas parts.2) with
    | some os => makeLine parts.1 os
    | none => none

/-- From the text of a line to the commands it presents, or none where the assembler refuses it. -/
def assembleText (text : List Char) : Option (List Command) :=
  match parseLine text with
  | some l => assemble l
  | none => none

end Sys2Proof.Machine
end

