-- ==== Sys2Proof/Machine/Several.lean ====
section
/-! DEFINITION. Several blocks side by side (spec/10_state.md R31, spec/60_exceptions.md R158): each has its own state;
what they may share, the table ROM, is constant. `step` is one block (`N_INST` = 1, R9); this file only sets blocks
beside each other. -/

namespace Sys2Proof.Machine

/-- Block `k` takes one step, the others none; there being no block `k`, nothing happens. -/
def stepBlock (blocks : List State) (k : Nat) : Host.Outcome (List State) Fault Refusal :=
  match blocks[k]? with
  | none => .next blocks
  | some s =>
    match step s with
    | .next t => .next (blocks.set k t)
    | .fault r => .fault r
    | .refused r => .refused r

end Sys2Proof.Machine
end

