-- ==== Sys2Proof/Safety.lean ====
section
/-! DEFINITION. The terms claims are stated in: the invariants of spec/10_state.md R28 and R29, what a well-formed
identifier is, and runs. -/

namespace Sys2Proof.Machine

/-- A well-formed identifier (R29, R104): version 1, and byte 11 the checksum of bytes 0 to 10. -/
def WellFormedId (cfg : Config) (v : Data) : Prop :=
  versionOf v = Config.version ∧ checksumOf v = checksum cfg v

/-- R28: with the identity captured, `S.IDR[31:8] = S.WID`; before, `S.IDR` and `S.WID` are zero. -/
structure State.IdentityInv (s : State) : Prop where
  captured : s.widv = true → workerOf s.idr = s.wid
  uncaptured : s.widv = false → s.idr = 0#96 ∧ s.wid = 0#24

/-- While the reset line is asserted the state elements hold the values of R170. -/
def State.ResetHeld (s : State) : Prop :=
  s.inReset = true → s.acc = s.cfg.crcInit ∧ s.wid = 0#24 ∧ s.widv = false ∧ s.idr = 0#96

/-- `S.IDR` holds zero, or the identity alone (SETWID and no PACK yet), or a well-formed identifier (R25, R29, R102). -/
def State.IdrShape (s : State) : Prop :=
  s.idr = 0#96 ∨ s.idr = withWorker 0#96 s.wid ∨ WellFormedId s.cfg s.idr

/-- The invariant of the block. -/
structure State.Inv (s : State) : Prop where
  identity : s.IdentityInv
  held : s.ResetHeld
  shape : s.IdrShape

/-- One step from `s` to `t`. -/
def Steps (s t : State) : Prop := step s = .next t

/-- The step out of `s` asserts reset. -/
def State.Resets (s : State) : Prop := s.inputs.head? = some (.resetLine true)

/-- Runs: from `s` to `t` in any number of steps. -/
inductive Reaches : State → State → Prop where
  | refl (s : State) : Reaches s s
  | tail {s t u : State} (run : Reaches s t) (last : Steps t u) : Reaches s u

/-- Runs inside one reset-to-reset interval: from `s` to `t`, no step of it asserting reset. -/
inductive ReachesWithoutReset : State → State → Prop where
  | refl (s : State) : ReachesWithoutReset s s
  | tail {s t u : State} (run : ReachesWithoutReset s t) (noReset : ¬ t.Resets) (last : Steps t u) :
      ReachesWithoutReset s u

/-- The step out of `s` executes a SETWID: one is at the port, outside reset. -/
def State.ExecutesSetwid (s : State) : Prop :=
  s.inReset = false ∧ ∃ c rest w, s.inputs = .command c :: rest ∧ decode c.cmd = .command (.setwid w)

/-- Runs in which no SETWID is executed: from `s` to `t`, any other command, reset or waiting. -/
inductive ReachesWithoutSetwid : State → State → Prop where
  | refl (s : State) : ReachesWithoutSetwid s s
  | tail {s t u : State} (run : ReachesWithoutSetwid s t) (noSetwid : ¬ t.ExecutesSetwid) (last : Steps t u) :
      ReachesWithoutSetwid s u

/-- The response a command's execution returned (R26): the newest one of the next state. -/
def answerOf : Host.Outcome State Fault Refusal → Option Response
  | .next t => t.responses.head?
  | .fault _ => none
  | .refused _ => none

/-- The response `r` to the command at the port, and nothing else: what a command that writes no state leaves. -/
def State.answered (s : State) (r : Response) : State :=
  { s with inputs := s.inputs.tail, responses := r :: s.responses }

/-- `k` steps of the block, each of which must give a next state. -/
def stepMany : Nat → State → Option State
  | 0, s => some s
  | k + 1, s =>
    match step s with
    | .next t => stepMany k t
    | .fault _ => none
    | .refused _ => none

end Sys2Proof.Machine
end

