-- ==== Sys2Proof/Certificates/Slice0/Obligations.lean ====
section
/-! DEFINITION. The statements for the provers, in the order of the spec's files. Each docstring names the rule of spec/
it formalises. A statement writes the spec's formula out in bits where it can, so that it does not rest on the model's own
helper; `s.answered r` is the state whose only change is that the command at the port was consumed and answered `r`. -/

open Sys2Proof Sys2Proof.Machine

/-! ## Parameters and the level of the model -/

/-- R8. A block given `CRC_POLY = 0x00` refuses the configuration; with it every entry of the table is zero, so that a
flipped bit goes unseen (here: of any byte sequence, any byte can be changed without changing the CRC). -/
def Obligations.ZeroPolynomialIsRefused : Prop :=
  (∀ s : State, s.cfg.crcPoly = 0x00#8 → step s = .refused .configRefused) ∧
  (∀ (cfg : Config) (i : Byte), cfg.crcPoly = 0x00#8 → tableEntry cfg i = 0x00#8) ∧
  (∀ (cfg : Config) (pre post : List Byte) (b b' : Byte), cfg.crcPoly = 0x00#8 →
    crc8 cfg (pre ++ b :: post) = crc8 cfg (pre ++ b' :: post))

/-- R11. The step is total: nothing is refused but a configuration that breaks R8, and nothing faults. Every command
word, an unassigned one too, has a response when it is presented outside reset. (That a step with nothing presented is
a step at all is the model's choice, notes/assumptions/4.md.) -/
def Obligations.StepIsTotalOnAcceptedConfigurations : Prop :=
  (∀ s : State, s.cfg.crcPoly ≠ 0x00#8 → ∃ t, step s = .next t) ∧
  (∀ s : State, (∃ r, step s = .refused r) ↔ s.cfg.crcPoly = 0x00#8) ∧
  (∀ (s : State) (r : Fault), step s ≠ .fault r) ∧
  (∀ (s : State) (w : Word) (d : Data) (rest : List HostInput), s.cfg.crcPoly ≠ 0x00#8 → s.inReset = false →
    s.inputs = .command ⟨w, d⟩ :: rest → ∃ r, answerOf (step s) = some r)

/-! ## Architectural state -/

/-- R21. The table's contents are a function of `CRC_POLY` and `CRC_REFLECT` alone; no command and no reset changes an
entry, and the entry the first command after reset reads is that one. -/
def Obligations.TableIsConstant : Prop :=
  (∀ (c c' : Config) (i : Byte), c.crcPoly = c'.crcPoly → c.crcReflect = c'.crcReflect →
    tableEntry c i = tableEntry c' i) ∧
  (∀ s t : State, Reaches s t → t.cfg = s.cfg ∧ ∀ i, t.tbl i = s.tbl i) ∧
  (∀ (cfg : Config) (idx : Byte),
    answerOf (exec (.tlook idx) (State.resetWith cfg)) = some ⟨.ok, 0#88 ++ tableEntry cfg idx⟩)

/-- The frame of every command (R22 to R25: who writes which element). `S.ACC` is written by CRCINIT and CRCB only,
`S.WID` and `S.WIDV` by SETWID only, `S.IDR` by SETWID and PACK only; the parameters and the reset line by none; each
command consumes itself and returns one response. -/
def Obligations.CommandsWriteOnlyTheirElements : Prop :=
  ∀ (i : Instr) (s t : State), exec i s = .next t →
    (i ≠ .crcinit → (∀ b, i ≠ .crcb b) → t.acc = s.acc) ∧
    ((∀ w, i ≠ .setwid w) → t.wid = s.wid ∧ t.widv = s.widv) ∧
    ((∀ w, i ≠ .setwid w) → (∀ c, i ≠ .pack c) → t.idr = s.idr) ∧
    (∀ w, i = .setwid w → timeWordOf t.idr = timeWordOf s.idr ∧ checksumOf t.idr = checksumOf s.idr) ∧
    t.cfg = s.cfg ∧ t.inReset = s.inReset ∧ t.inputs = s.inputs.tail ∧
    (∃ r, t.responses = r :: s.responses)

/-- R26. A step returns at most one response; a response once returned is never changed; and no step reads one: with any
other responses returned before, the step does the same. (The list that records them is the model's port,
notes/assumptions/6.md.) -/
def Obligations.ResponsesAreCopiesNeverRead : Prop :=
  ∀ s t : State, step s = .next t →
    ∃ new : List Response, new.length ≤ 1 ∧ t.responses = new ++ s.responses ∧
      ∀ rs : List Response, step { s with responses := rs } = .next { t with responses := new ++ rs }

/-- The model's invariant is kept by every step, from every state that meets it (R28's relation of `S.WIDV`, `S.WID`
and `S.IDR`; the reset values held while the reset line of notes/assumptions/7.md is asserted; `S.IDR` zero, the identity
alone, or well formed). -/
def Obligations.StepKeepsInvariant : Prop :=
  ∀ s t : State, s.Inv → step s = .next t → t.Inv

/-- The state right after reset meets the invariant, under every parameter and whatever the host presents. -/
def Obligations.ResetMeetsInvariant : Prop :=
  State.reset.Inv ∧ ∀ (cfg : Config) (ins : List HostInput), State.Inv { State.resetWith cfg with inputs := ins }

/-- R28, of every state a run from reset reaches, under every parameter and every sequence of host inputs. -/
def Obligations.ReachableIdentityRelation : Prop :=
  ∀ (cfg : Config) (ins : List HostInput) (t : State), Reaches { State.resetWith cfg with inputs := ins } t →
    (t.widv = true → t.idr.extractLsb' 8 24 = t.wid) ∧ (t.widv = false → t.idr = 0#96 ∧ t.wid = 0#24)

/-- R29. After an accepted PACK, and until reset is asserted, `S.IDR` is a well-formed identifier: VALID with length 12
and `DIN = S.IDR` responds OK. -/
def Obligations.IdrStaysValidAfterPack : Prop :=
  ∀ (s u t v : State) (c : Command) (n : Byte) (rest : List HostInput),
    s.inputs = .command c :: rest → s.inReset = false → decode c.cmd = .command (.pack n) → s.widv = true →
    step s = .next u → ReachesWithoutReset u t → v.cfg = t.cfg → v.din = t.idr →
    exec (.valid 12#24) v = .next (v.answered ⟨.ok, 0#96⟩)

/-- R30. From the capture of the identity to the next reset, `S.WID` is constant and is the worker-identity field of
every identifier an accepted PACK produces. -/
def Obligations.PackedWorkerFieldIsConstant : Prop :=
  ∀ (s t : State) (c : Byte), s.widv = true → ReachesWithoutReset s t →
    t.wid = s.wid ∧
    ∃ u id, exec (.pack c) t = .next u ∧ u.idr = id ∧ u.responses = ⟨.ok, id⟩ :: t.responses ∧
      id.extractLsb' 8 24 = s.wid

/-- R31. A command to one block never changes another's state; and of two blocks with the same parameters and the same
`S.WID`, the same timestamp and counter make the same identifier (spec/95_test_vectors.md section 1.6). -/
def Obligations.BlocksAreIndependent : Prop :=
  (∀ (bs bs' : List State) (k j : Nat), stepBlock bs k = .next bs' → j ≠ k → bs'[j]? = bs[j]?) ∧
  (∀ (bs bs' : List State) (k : Nat) (s : State), bs[k]? = some s → stepBlock bs k = .next bs' →
    ∃ t, step s = .next t ∧ bs'[k]? = some t) ∧
  (∀ (a b : State) (c : Byte), a.cfg = b.cfg → a.wid = b.wid → a.widv = true → b.widv = true →
    a.din.extractLsb' 0 52 = b.din.extractLsb' 0 52 → answerOf (exec (.pack c) a) = answerOf (exec (.pack c) b))

/-! ## Byte order and ordering -/

/-- R40, R41, R42. The bytes and the fields of an identifier: byte `k` is `V[95-8k : 88-8k]`, source bit `i` is
`V[95-i]`, and the five fields lie at the source bits of R42's table, their most significant bit first. -/
def Obligations.IdentifierLayout : Prop :=
  ∀ v : Data,
    (∀ k j, k < 12 → j < 8 → (byteOf v k).getLsbD j = v.getLsbD (88 - 8 * k + j)) ∧
    (∀ i, i < 96 → sourceBit v i = v.getLsbD (95 - i)) ∧
    (∀ i, i < 4 → (versionOf v).getMsbD i = sourceBit v i) ∧
    (∀ i, i < 52 → (timestampOf v).getMsbD i = sourceBit v (4 + i)) ∧
    (∀ i, i < 8 → (counterOf v).getMsbD i = sourceBit v (56 + i)) ∧
    (∀ i, i < 24 → (workerOf v).getMsbD i = sourceBit v (64 + i)) ∧
    (∀ i, i < 8 → (checksumOf v).getMsbD i = sourceBit v (88 + i)) ∧
    v = versionOf v ++ timestampOf v ++ counterOf v ++ workerOf v ++ checksumOf v

/-- R43. The time-word is `{version, timestamp, counter}`, occupies bytes 0 to 7 big-endian, and its top four bits are
the version. -/
def Obligations.TimeWordIsBytes0To7 : Prop :=
  ∀ v : Data,
    v.extractLsb' 32 64 = versionOf v ++ timestampOf v ++ counterOf v ∧
    timeWordOf v = v.extractLsb' 32 64 ∧
    timeWordOf v = byteOf v 0 ++ byteOf v 1 ++ byteOf v 2 ++ byteOf v 3 ++ byteOf v 4 ++ byteOf v 5 ++ byteOf v 6
      ++ byteOf v 7 ∧
    (timeWordOf v).extractLsb' 60 4 = v.extractLsb' 92 4

/-- R44. Comparing two identifiers byte by byte from byte 0, as unsigned bytes, gives the order of their unsigned
values. -/
def Obligations.BytewiseOrderIsNumericOrder : Prop :=
  ∀ v w : Data,
    List.Lex (fun a b : Byte => a.toNat < b.toNat) (bytes0to11 v) (bytes0to11 w) ↔ v.toNat < w.toNat

/-- R46. SETWID's immediate lands in `V[31:8]` bit for bit: bytes 8, 9 and 10 of the identifier are `IMM[23:16]`,
`IMM[15:8]` and `IMM[7:0]`. -/
def Obligations.SetwidImmediateLandsInBytes8To10 : Prop :=
  ∀ (s : State) (u : Word24), s.widv = false →
    ∃ t, exec (.setwid u) s = .next t ∧
      (∀ j, j < 24 → t.idr.getLsbD (8 + j) = u.getLsbD j) ∧
      byteOf t.idr 8 = u.extractLsb' 16 8 ∧ byteOf t.idr 9 = u.extractLsb' 8 8 ∧ byteOf t.idr 10 = u.extractLsb' 0 8

/-- R51, R52. The host's inputs are consumed one at a time in the order presented, each whole: a step consumes exactly
the oldest, and what the host presents later has no effect on it. (The list of inputs is the model's port,
notes/assumptions/4.md.) -/
def Obligations.InputsAreConsumedInOrder : Prop :=
  (∀ s t : State, step s = .next t → t.inputs = s.inputs.tail) ∧
  (∀ (s t : State) (x : HostInput), s.inputs ≠ [] → step s = .next t → step (s.present x) = .next (t.present x))

/-! ## Encoding -/

/-- Decode and encode agree: a word decodes to a command exactly when it is that command's encoding. So decoding an
encoded command gives it back, with every operand at every value its field admits, and no second word decodes to it
(R61, R64, R68). -/
def Obligations.DecodeAndEncodeAgree : Prop :=
  ∀ (w : Word) (i : Instr), decode w = .command i ↔ w = encode i

/-- R64. The ten rows; a word is the instruction of a row exactly when `CMD & mask = match`; the rows do not overlap;
every other opcode is unassigned. -/
def Obligations.OpcodeMap : Prop :=
  opcodeTable.map (fun r => (r.mnemonic, r.format, r.matchBits, r.maskBits)) =
    [("NOP", .n, 0x00000000#32, 0xFFFFFFFF#32), ("TLOOK", .b, 0x01000000#32, 0xFFFFFF00#32),
     ("CRCINIT", .n, 0x02000000#32, 0xFFFFFFFF#32), ("CRCB", .b, 0x03000000#32, 0xFFFFFF00#32),
     ("CRCRD", .n, 0x04000000#32, 0xFFFFFFFF#32), ("CRC11", .n, 0x05000000#32, 0xFFFFFFFF#32),
     ("SETWID", .w, 0x10000000#32, 0xFF000000#32), ("PACK", .b, 0x11000000#32, 0xFFFFFF00#32),
     ("RDID", .n, 0x12000000#32, 0xFFFFFFFF#32), ("VALID", .w, 0x20000000#32, 0xFF000000#32)] ∧
  (∀ r ∈ opcodeTable, ∀ w : Word,
    w &&& r.maskBits = r.matchBits ↔ ∃ i, decode w = .command i ∧ mnemonicOf i = r.mnemonic) ∧
  (∀ r ∈ opcodeTable, ∀ r' ∈ opcodeTable, ∀ w : Word,
    w &&& r.maskBits = r.matchBits → w &&& r'.maskBits = r'.matchBits → r = r') ∧
  (∀ w : Word, (∀ r ∈ opcodeTable, w.extractLsb' 24 8 ≠ r.matchBits.extractLsb' 24 8) →
    decode w = .illegal .unassignedOpcode)

/-- R66. A word is illegal exactly when its opcode lies in an unassigned range, or its opcode is assigned and a reserved
bit of its format is 1; an illegal command answers ILLEGAL and changes no state; every word is either exactly one
assigned command or illegal. The check `wordLegal` says the same. -/
def Obligations.IllegalWords : Prop :=
  (∀ w : Word, (∃ why, decode w = .illegal why) ↔
    ((0x06 ≤ (w >>> 24).toNat ∧ (w >>> 24).toNat ≤ 0x0F) ∨ (0x13 ≤ (w >>> 24).toNat ∧ (w >>> 24).toNat ≤ 0x1F) ∨
      0x21 ≤ (w >>> 24).toNat) ∨
    ((w >>> 24).toNat ∈ [0x00, 0x02, 0x04, 0x05, 0x12] ∧ w.extractLsb' 0 24 ≠ 0#24) ∨
    ((w >>> 24).toNat ∈ [0x01, 0x03, 0x11] ∧ w.extractLsb' 8 16 ≠ 0#16)) ∧
  (∀ w : Word, wordLegal w = false ↔ ∃ why, decode w = .illegal why) ∧
  (∀ w : Word, (∃ why, decode w = .illegal why) ∨ ∃ i, decode w = .command i ∧ ∀ j, decode w = .command j → j = i) ∧
  (∀ (s : State) (c : Command) (rest : List HostInput) (why : Illegal), s.cfg.crcPoly ≠ 0x00#8 → s.inReset = false →
    s.inputs = .command c :: rest → decode c.cmd = .illegal why →
    step s = .next { s with inputs := rest, responses := ⟨.illegal, 0#96⟩ :: s.responses })

/-- R67. The bits of `DIN` that R63 does not list for the opcode are ignored: with any values there the command does
exactly the same. R63's table, row by row: CRC11 reads `DIN[95:8]`, PACK `DIN[51:0]`, VALID all of `DIN` when its operand
is 12 and none otherwise, every other command none. Second clause: the model's mask of those bits, `dinMask`, lets
through all a command reads. -/
def Obligations.UnusedDinBitsAreIgnored : Prop :=
  (∀ (i : Instr) (s : State) (w : Word) (d d' : Data) (rest : List HostInput),
    s.inputs = .command ⟨w, d⟩ :: rest →
    (i = .crc11 → d.extractLsb' 8 88 = d'.extractLsb' 8 88) →
    (∀ c, i = .pack c → d.extractLsb' 0 52 = d'.extractLsb' 0 52) →
    (i = .valid 12#24 → d = d') →
    ∃ t, exec i s = .next t ∧ exec i { s with inputs := .command ⟨w, d'⟩ :: rest } = .next t) ∧
  (∀ (i : Instr) (s : State) (w : Word) (d : Data) (rest : List HostInput),
    s.inputs = .command ⟨w, d⟩ :: rest →
    exec i { s with inputs := .command ⟨w, d &&& dinMask i⟩ :: rest } = exec i s)

/-- R68. Decoding is total, in its check order: an unassigned opcode is ILLEGAL, reserved bits or not; an assigned one
with a reserved bit set is ILLEGAL; otherwise the word is the command with its operand. It never reads `DIN` or the
state: two blocks presented the same word outside reset execute the same command, or both answer ILLEGAL. -/
def Obligations.DecodeCheckOrder : Prop :=
  (∀ w : Word, (w >>> 24).toNat ∉ [0x00, 0x01, 0x02, 0x03, 0x04, 0x05, 0x10, 0x11, 0x12, 0x20] →
    decode w = .illegal .unassignedOpcode) ∧
  (∀ w : Word, (w >>> 24).toNat ∈ [0x00, 0x02, 0x04, 0x05, 0x12] → w.extractLsb' 0 24 ≠ 0#24 →
    decode w = .illegal .reservedBits) ∧
  (∀ w : Word, (w >>> 24).toNat ∈ [0x01, 0x03, 0x11] → w.extractLsb' 8 16 ≠ 0#16 →
    decode w = .illegal .reservedBits) ∧
  decode 0x00000000#32 = .command .nop ∧
  (∀ b : Byte, decode (0x01#8 ++ 0#16 ++ b) = .command (.tlook b)) ∧
  decode 0x02000000#32 = .command .crcinit ∧
  (∀ b : Byte, decode (0x03#8 ++ 0#16 ++ b) = .command (.crcb b)) ∧
  decode 0x04000000#32 = .command .crcrd ∧
  decode 0x05000000#32 = .command .crc11 ∧
  (∀ u : Word24, decode (0x10#8 ++ u) = .command (.setwid u)) ∧
  (∀ b : Byte, decode (0x11#8 ++ 0#16 ++ b) = .command (.pack b)) ∧
  decode 0x12000000#32 = .command .rdid ∧
  (∀ u : Word24, decode (0x20#8 ++ u) = .command (.valid u)) ∧
  (∀ (s s' : State) (w : Word) (d d' : Data) (rest rest' : List HostInput),
    s.cfg.crcPoly ≠ 0x00#8 → s'.cfg.crcPoly ≠ 0x00#8 → s.inReset = false → s'.inReset = false →
    s.inputs = .command ⟨w, d⟩ :: rest → s'.inputs = .command ⟨w, d'⟩ :: rest' →
    (∃ i, step s = exec i s ∧ step s' = exec i s') ∨
    (answerOf (step s) = some ⟨.illegal, 0#96⟩ ∧ answerOf (step s') = some ⟨.illegal, 0#96⟩))

/-- Words written out from R61 and R64 decode to the commands they stand for. -/
def Obligations.SampleWordsDecode : Prop :=
  decode 0x00000000#32 = .command .nop ∧ decode 0x010000AA#32 = .command (.tlook 0xAA#8) ∧
  decode 0x03000031#32 = .command (.crcb 0x31#8) ∧ decode 0x10AAAAAA#32 = .command (.setwid 0xAAAAAA#24) ∧
  decode 0x11000001#32 = .command (.pack 0x01#8) ∧ decode 0x2000000C#32 = .command (.valid 12#24)

/-- R69. A line of assembly whose operands fit their fields makes the word and the `DIN` of R69's table, and that word
decodes to the command the line names, with the line's operand (a `.word` line names none: its word is given, legal or
not); a line with an operand that does not fit is refused. -/
def Obligations.AssemblerWords : Prop :=
  assemble .nop = some [⟨0x00000000#32, 0#96⟩] ∧
  (∀ n, assemble (.tlook n) = if n < 256 then some [⟨BitVec.ofNat 32 (0x01000000 + n), 0#96⟩] else none) ∧
  assemble .crcinit = some [⟨0x02000000#32, 0#96⟩] ∧
  (∀ n, assemble (.crcb n) = if n < 256 then some [⟨BitVec.ofNat 32 (0x03000000 + n), 0#96⟩] else none) ∧
  assemble .crcrd = some [⟨0x04000000#32, 0#96⟩] ∧
  (∀ x, assemble (.crc11 x) = if x < 2 ^ 96 then some [⟨0x05000000#32, BitVec.ofNat 96 x⟩] else none) ∧
  (∀ n, assemble (.setwid n) = if n < 2 ^ 24 then some [⟨BitVec.ofNat 32 (0x10000000 + n), 0#96⟩] else none) ∧
  (∀ n x, assemble (.pack n x) =
    if n < 256 ∧ x < 2 ^ 96 then some [⟨BitVec.ofNat 32 (0x11000000 + n), BitVec.ofNat 96 x⟩] else none) ∧
  assemble .rdid = some [⟨0x12000000#32, 0#96⟩] ∧
  (∀ n x, assemble (.valid n x) =
    if n < 2 ^ 24 ∧ x < 2 ^ 96 then some [⟨BitVec.ofNat 32 (0x20000000 + n), BitVec.ofNat 96 x⟩] else none) ∧
  (∀ n x, assemble (.word n x) =
    if n < 2 ^ 32 ∧ x < 2 ^ 96 then some [⟨BitVec.ofNat 32 n, BitVec.ofNat 96 x⟩] else none) ∧
  decode 0x00000000#32 = .command .nop ∧ decode 0x02000000#32 = .command .crcinit ∧
  decode 0x04000000#32 = .command .crcrd ∧ decode 0x05000000#32 = .command .crc11 ∧
  decode 0x12000000#32 = .command .rdid ∧
  (∀ n, n < 256 → decode (BitVec.ofNat 32 (0x01000000 + n)) = .command (.tlook (BitVec.ofNat 8 n))) ∧
  (∀ n, n < 256 → decode (BitVec.ofNat 32 (0x03000000 + n)) = .command (.crcb (BitVec.ofNat 8 n))) ∧
  (∀ n, n < 256 → decode (BitVec.ofNat 32 (0x11000000 + n)) = .command (.pack (BitVec.ofNat 8 n))) ∧
  (∀ n, n < 2 ^ 24 → decode (BitVec.ofNat 32 (0x10000000 + n)) = .command (.setwid (BitVec.ofNat 24 n))) ∧
  (∀ n, n < 2 ^ 24 → decode (BitVec.ofNat 32 (0x20000000 + n)) = .command (.valid (BitVec.ofNat 24 n)))

/-- R70. `VALID12 din=X` is `VALID 12, din=X`; `CRCSTR b_0, ..., b_{n-1}` is CRCINIT then the CRCBs in order, for every
`n` from 0, and leaves in `S.ACC` the CRC register of those bytes; CRCRD then answers their CRC and keeps `S.ACC`. -/
def Obligations.PseudoInstructions : Prop :=
  (∀ x, assemble (.valid12 x) = assemble (.valid 12 x)) ∧
  (∀ bs : List Nat, (∀ b ∈ bs, b < 256) → assemble (.crcstr bs) =
    some (⟨0x02000000#32, 0#96⟩ :: bs.map fun b => ⟨BitVec.ofNat 32 (0x03000000 + b), 0#96⟩)) ∧
  (∀ bs : List Nat, (∃ b ∈ bs, 256 ≤ b) → assemble (.crcstr bs) = none) ∧
  (∀ (bs : List Nat) (cs : List Command) (s : State) (d : Data) (rest : List HostInput),
    assemble (.crcstr bs) = some cs → s.cfg.crcPoly ≠ 0x00#8 → s.inReset = false →
    s.inputs = cs.map .command ++ .command ⟨0x04000000#32, d⟩ :: rest →
    ∃ u t, stepMany (bs.length + 1) s = some u ∧
      u.acc = crcRegister s.cfg s.cfg.crcInit (bs.map (BitVec.ofNat 8)) ∧
      stepMany (bs.length + 2) s = some t ∧ t.inputs = rest ∧
      t.acc = crcRegister s.cfg s.cfg.crcInit (bs.map (BitVec.ofNat 8)) ∧
      t.responses.head? = some ⟨.ok, 0#88 ++ crc8 s.cfg (bs.map (BitVec.ofNat 8))⟩)

/-! ## Checksum table and CRC commands -/

/-- R80. The table in the MSB-first form: the loop as the rule writes it, and the entry as the remainder of `i(x) * x^8`
divided by `x^8 + CRC_POLY(x)` over GF(2) (`q` is the quotient; the product of polynomials is the XOR of shifted copies;
an 8-bit remainder has degree below 8). -/
def Obligations.TableIsPolynomialRemainder : Prop :=
  ∀ (cfg : Config) (i : Byte), cfg.crcReflect = false →
    tableEntry cfg i = (List.range 8).foldl
      (fun (c : Byte) (_ : Nat) => if c.getLsbD 7 = true then (c <<< 1) ^^^ cfg.crcPoly else c <<< 1) i ∧
    ∃ q : Byte, (i ++ 0#8 : BitVec 16) =
      (List.range 8).foldl
        (fun acc k => if q.getLsbD k = true then acc ^^^ ((0x01#8 ++ cfg.crcPoly : BitVec 16) <<< k) else acc) 0#16
      ^^^ (0#8 ++ tableEntry cfg i : BitVec 16)

/-- R81. The table in the LSB-first form: the loop as the rule writes it, with `rev8` moving bit `j` to bit `7-j`. -/
def Obligations.TableReflectedForm : Prop :=
  (∀ (p : Byte) (j : Nat), j < 8 → (rev8 p).getLsbD (7 - j) = p.getLsbD j) ∧
  (∀ (cfg : Config) (i : Byte), cfg.crcReflect = true →
    tableEntry cfg i = (List.range 8).foldl
      (fun (c : Byte) (_ : Nat) => if c.getLsbD 0 = true then (c >>> 1) ^^^ rev8 cfg.crcPoly else c >>> 1) i)

/-- R82, R91. The CRC function: the loop from `CRC_INIT`, the final XOR; under the defaults no bytes give `0x00` and
"123456789" gives `0xF4`; the identifier's checksum is over bytes 0 to 10, byte 0 first (R45). With `CRC_INIT` and
`CRC_XOROUT` zero a table entry is the CRC of its index as a single byte. -/
def Obligations.CrcFunction : Prop :=
  (∀ (cfg : Config) (bs : List Byte),
    crc8 cfg bs = bs.foldl (fun c b => tableEntry cfg (c ^^^ b)) cfg.crcInit ^^^ cfg.crcXorOut) ∧
  (∀ (cfg : Config) (v : Data),
    checksum cfg v = crc8 cfg [v.extractLsb' 88 8, v.extractLsb' 80 8, v.extractLsb' 72 8, v.extractLsb' 64 8,
      v.extractLsb' 56 8, v.extractLsb' 48 8, v.extractLsb' 40 8, v.extractLsb' 32 8, v.extractLsb' 24 8,
      v.extractLsb' 16 8, v.extractLsb' 8 8]) ∧
  (∀ (cfg : Config) (i : Byte), cfg.crcInit = 0x00#8 → cfg.crcXorOut = 0x00#8 → tableEntry cfg i = crc8 cfg [i]) ∧
  crc8 Config.default [] = 0x00#8 ∧
  crc8 Config.default [0x31#8, 0x32#8, 0x33#8, 0x34#8, 0x35#8, 0x36#8, 0x37#8, 0x38#8, 0x39#8] = 0xF4#8

/-- R83. The table under the defaults: the sixteen rows of the listing; `TBL[0] = 0x00` and `TBL[1] = CRC_POLY`; every
entry is distinct and the table is a permutation of 0..255. -/
def Obligations.DefaultTableListing : Prop :=
  (List.range 16).map (fun i => tableEntry Config.default (BitVec.ofNat 8 (0x00 + i))) =
    [0x00#8, 0x07#8, 0x0E#8, 0x09#8, 0x1C#8, 0x1B#8, 0x12#8, 0x15#8,
     0x38#8, 0x3F#8, 0x36#8, 0x31#8, 0x24#8, 0x23#8, 0x2A#8, 0x2D#8] ∧
  (List.range 16).map (fun i => tableEntry Config.default (BitVec.ofNat 8 (0x10 + i))) =
    [0x70#8, 0x77#8, 0x7E#8, 0x79#8, 0x6C#8, 0x6B#8, 0x62#8, 0x65#8,
     0x48#8, 0x4F#8, 0x46#8, 0x41#8, 0x54#8, 0x53#8, 0x5A#8, 0x5D#8] ∧
  (List.range 16).map (fun i => tableEntry Config.default (BitVec.ofNat 8 (0x20 + i))) =
    [0xE0#8, 0xE7#8, 0xEE#8, 0xE9#8, 0xFC#8, 0xFB#8, 0xF2#8, 0xF5#8,
     0xD8#8, 0xDF#8, 0xD6#8, 0xD1#8, 0xC4#8, 0xC3#8, 0xCA#8, 0xCD#8] ∧
  (List.range 16).map (fun i => tableEntry Config.default (BitVec.ofNat 8 (0x30 + i))) =
    [0x90#8, 0x97#8, 0x9E#8, 0x99#8, 0x8C#8, 0x8B#8, 0x82#8, 0x85#8,
     0xA8#8, 0xAF#8, 0xA6#8, 0xA1#8, 0xB4#8, 0xB3#8, 0xBA#8, 0xBD#8] ∧
  (List.range 16).map (fun i => tableEntry Config.default (BitVec.ofNat 8 (0x40 + i))) =
    [0xC7#8, 0xC0#8, 0xC9#8, 0xCE#8, 0xDB#8, 0xDC#8, 0xD5#8, 0xD2#8,
     0xFF#8, 0xF8#8, 0xF1#8, 0xF6#8, 0xE3#8, 0xE4#8, 0xED#8, 0xEA#8] ∧
  (List.range 16).map (fun i => tableEntry Config.default (BitVec.ofNat 8 (0x50 + i))) =
    [0xB7#8, 0xB0#8, 0xB9#8, 0xBE#8, 0xAB#8, 0xAC#8, 0xA5#8, 0xA2#8,
     0x8F#8, 0x88#8, 0x81#8, 0x86#8, 0x93#8, 0x94#8, 0x9D#8, 0x9A#8] ∧
  (List.range 16).map (fun i => tableEntry Config.default (BitVec.ofNat 8 (0x60 + i))) =
    [0x27#8, 0x20#8, 0x29#8, 0x2E#8, 0x3B#8, 0x3C#8, 0x35#8, 0x32#8,
     0x1F#8, 0x18#8, 0x11#8, 0x16#8, 0x03#8, 0x04#8, 0x0D#8, 0x0A#8] ∧
  (List.range 16).map (fun i => tableEntry Config.default (BitVec.ofNat 8 (0x70 + i))) =
    [0x57#8, 0x50#8, 0x59#8, 0x5E#8, 0x4B#8, 0x4C#8, 0x45#8, 0x42#8,
     0x6F#8, 0x68#8, 0x61#8, 0x66#8, 0x73#8, 0x74#8, 0x7D#8, 0x7A#8] ∧
  (List.range 16).map (fun i => tableEntry Config.default (BitVec.ofNat 8 (0x80 + i))) =
    [0x89#8, 0x8E#8, 0x87#8, 0x80#8, 0x95#8, 0x92#8, 0x9B#8, 0x9C#8,
     0xB1#8, 0xB6#8, 0xBF#8, 0xB8#8, 0xAD#8, 0xAA#8, 0xA3#8, 0xA4#8] ∧
  (List.range 16).map (fun i => tableEntry Config.default (BitVec.ofNat 8 (0x90 + i))) =
    [0xF9#8, 0xFE#8, 0xF7#8, 0xF0#8, 0xE5#8, 0xE2#8, 0xEB#8, 0xEC#8,
     0xC1#8, 0xC6#8, 0xCF#8, 0xC8#8, 0xDD#8, 0xDA#8, 0xD3#8, 0xD4#8] ∧
  (List.range 16).map (fun i => tableEntry Config.default (BitVec.ofNat 8 (0xA0 + i))) =
    [0x69#8, 0x6E#8, 0x67#8, 0x60#8, 0x75#8, 0x72#8, 0x7B#8, 0x7C#8,
     0x51#8, 0x56#8, 0x5F#8, 0x58#8, 0x4D#8, 0x4A#8, 0x43#8, 0x44#8] ∧
  (List.range 16).map (fun i => tableEntry Config.default (BitVec.ofNat 8 (0xB0 + i))) =
    [0x19#8, 0x1E#8, 0x17#8, 0x10#8, 0x05#8, 0x02#8, 0x0B#8, 0x0C#8,
     0x21#8, 0x26#8, 0x2F#8, 0x28#8, 0x3D#8, 0x3A#8, 0x33#8, 0x34#8] ∧
  (List.range 16).map (fun i => tableEntry Config.default (BitVec.ofNat 8 (0xC0 + i))) =
    [0x4E#8, 0x49#8, 0x40#8, 0x47#8, 0x52#8, 0x55#8, 0x5C#8, 0x5B#8,
     0x76#8, 0x71#8, 0x78#8, 0x7F#8, 0x6A#8, 0x6D#8, 0x64#8, 0x63#8] ∧
  (List.range 16).map (fun i => tableEntry Config.default (BitVec.ofNat 8 (0xD0 + i))) =
    [0x3E#8, 0x39#8, 0x30#8, 0x37#8, 0x22#8, 0x25#8, 0x2C#8, 0x2B#8,
     0x06#8, 0x01#8, 0x08#8, 0x0F#8, 0x1A#8, 0x1D#8, 0x14#8, 0x13#8] ∧
  (List.range 16).map (fun i => tableEntry Config.default (BitVec.ofNat 8 (0xE0 + i))) =
    [0xAE#8, 0xA9#8, 0xA0#8, 0xA7#8, 0xB2#8, 0xB5#8, 0xBC#8, 0xBB#8,
     0x96#8, 0x91#8, 0x98#8, 0x9F#8, 0x8A#8, 0x8D#8, 0x84#8, 0x83#8] ∧
  (List.range 16).map (fun i => tableEntry Config.default (BitVec.ofNat 8 (0xF0 + i))) =
    [0xDE#8, 0xD9#8, 0xD0#8, 0xD7#8, 0xC2#8, 0xC5#8, 0xCC#8, 0xCB#8,
     0xE6#8, 0xE1#8, 0xE8#8, 0xEF#8, 0xFA#8, 0xFD#8, 0xF4#8, 0xF3#8] ∧
  tableEntry Config.default 0x00#8 = 0x00#8 ∧ tableEntry Config.default 0x01#8 = Config.default.crcPoly ∧
  (∀ i j : Byte, tableEntry Config.default i = tableEntry Config.default j → i = j) ∧
  (∀ b : Byte, ∃ i : Byte, tableEntry Config.default i = b)

/-- R84. TLOOK answers OK with the table entry zero-extended and changes nothing; entry 0 is `0x00` in both forms for
every polynomial; reserved bits set give ILLEGAL; the example. -/
def Obligations.TlookReadsEntry : Prop :=
  (∀ (idx : Byte) (s : State),
    exec (.tlook idx) s = .next (s.answered ⟨.ok, 0#88 ++ tableEntry s.cfg idx⟩)) ∧
  (∀ cfg : Config, tableEntry cfg 0x00#8 = 0x00#8) ∧
  (∀ idx : Byte, decode (0x01#8 ++ 0#16 ++ idx) = .command (.tlook idx)) ∧
  (∀ (h : BitVec 16) (b : Byte), h ≠ 0#16 → decode (0x01#8 ++ h ++ b) = .illegal .reservedBits) ∧
  tableEntry Config.default 0xFF#8 = 0xF3#8

/-- R85. CRCINIT writes `CRC_INIT` to `S.ACC`, answers OK, and changes nothing else; it is idempotent on `S.ACC`; right
after reset it leaves `S.ACC` as it is; reserved bits set give ILLEGAL; the example. -/
def Obligations.CrcinitStartsStream : Prop :=
  (∀ s : State, exec .crcinit s = .next { s.answered ⟨.ok, 0#96⟩ with acc := s.cfg.crcInit }) ∧
  (∀ s t u : State, exec .crcinit s = .next t → exec .crcinit t = .next u → u.acc = t.acc) ∧
  (∀ cfg : Config, exec .crcinit (State.resetWith cfg) = .next ((State.resetWith cfg).answered ⟨.ok, 0#96⟩)) ∧
  decode 0x02000000#32 = .command .crcinit ∧
  (∀ h : Word24, h ≠ 0#24 → decode (0x02#8 ++ h) = .illegal .reservedBits) ∧
  (∀ s : State, s.cfg = Config.default → s.acc = 0x5A#8 → ∃ t, exec .crcinit s = .next t ∧ t.acc = 0x00#8)

/-- R86. CRCB writes `TBL[S.ACC ^ b]` to `S.ACC`, answers OK with the finished CRC of the stream so far, and changes
nothing else; a byte equal to the accumulator makes it `0x00`; reserved bits set give ILLEGAL; the example. -/
def Obligations.CrcbFeedsByte : Prop :=
  (∀ (b : Byte) (s : State), exec (.crcb b) s =
    .next { s.answered ⟨.ok, 0#88 ++ (tableEntry s.cfg (s.acc ^^^ b) ^^^ s.cfg.crcXorOut)⟩ with
      acc := tableEntry s.cfg (s.acc ^^^ b) }) ∧
  (∀ s : State, ∃ t, exec (.crcb s.acc) s = .next t ∧ t.acc = 0x00#8) ∧
  (∀ b : Byte, decode (0x03#8 ++ 0#16 ++ b) = .command (.crcb b)) ∧
  (∀ (h : BitVec 16) (b : Byte), h ≠ 0#16 → decode (0x03#8 ++ h ++ b) = .illegal .reservedBits) ∧
  (∀ s : State, s.cfg = Config.default → s.acc = 0xFF#8 →
    exec (.crcb 0x00#8) s = .next { s.answered ⟨.ok, 0xF3#96⟩ with acc := 0xF3#8 })

/-- R87. CRCRD answers OK with `S.ACC ^ CRC_XOROUT` and changes nothing; after CRCINIT with no CRCB it answers the CRC of
no bytes; reserved bits set give ILLEGAL; the example. -/
def Obligations.CrcrdReadsStream : Prop :=
  (∀ s : State, exec .crcrd s = .next (s.answered ⟨.ok, 0#88 ++ (s.acc ^^^ s.cfg.crcXorOut)⟩)) ∧
  (∀ s t : State, exec .crcinit s = .next t → answerOf (exec .crcrd t) = some ⟨.ok, 0#88 ++ crc8 s.cfg []⟩) ∧
  decode 0x04000000#32 = .command .crcrd ∧
  (∀ h : Word24, h ≠ 0#24 → decode (0x04#8 ++ h) = .illegal .reservedBits) ∧
  (∀ (s : State) (rest : List HostInput), s.cfg = Config.default → s.inReset = false →
    s.inputs = (expand (.crcstr [0x31, 0x32, 0x33, 0x34, 0x35, 0x36, 0x37, 0x38, 0x39])).map .command ++
      .command ⟨0x04000000#32, 0#96⟩ :: rest →
    ∃ t, stepMany 11 s = some t ∧ t.responses.head? = some ⟨.ok, 0xF4#96⟩)

/-- R88. CRC11 answers OK with the CRC of bytes 0 to 10 of `DIN` and changes nothing, `S.ACC` included; byte 11 is not
read; all-zero bytes give `0x00` under the defaults; reserved bits set give ILLEGAL; the example. -/
def Obligations.Crc11ChecksumsBytes0To10 : Prop :=
  (∀ s : State, exec .crc11 s = .next (s.answered ⟨.ok, 0#88 ++ crc8 s.cfg
    [s.din.extractLsb' 88 8, s.din.extractLsb' 80 8, s.din.extractLsb' 72 8, s.din.extractLsb' 64 8,
     s.din.extractLsb' 56 8, s.din.extractLsb' 48 8, s.din.extractLsb' 40 8, s.din.extractLsb' 32 8,
     s.din.extractLsb' 24 8, s.din.extractLsb' 16 8, s.din.extractLsb' 8 8]⟩)) ∧
  (∀ s u : State, s.cfg = u.cfg → s.din.extractLsb' 8 88 = u.din.extractLsb' 8 88 →
    answerOf (exec .crc11 s) = answerOf (exec .crc11 u)) ∧
  decode 0x05000000#32 = .command .crc11 ∧
  (∀ h : Word24, h ≠ 0#24 → decode (0x05#8 ++ h) = .illegal .reservedBits) ∧
  (∀ s : State, s.cfg = Config.default → s.din = 0#96 → answerOf (exec .crc11 s) = some ⟨.ok, 0#96⟩) ∧
  (∀ s : State, s.cfg = Config.default → s.din = 0x165FF4E04C000000AAAAAA00#96 →
    answerOf (exec .crc11 s) = some ⟨.ok, 0xAF#96⟩)

/-- R89. For every polynomial but `0x00`, both table forms and every `CRC_INIT` and `CRC_XOROUT`, two 11-byte sequences
that differ in exactly one bit have different CRC-8 values. -/
def Obligations.SingleBitChangesCrc : Prop :=
  ∀ (cfg : Config) (pre post : List Byte) (b : Byte) (j : Nat),
    cfg.crcPoly ≠ 0x00#8 → j < 8 → pre.length + 1 + post.length = 11 →
    crc8 cfg (pre ++ b :: post) ≠ crc8 cfg (pre ++ (b ^^^ (1#8 <<< j)) :: post)

/-- R90. From any state outside reset, the words of CRCINIT, CRCB `b_0`, ..., CRCB `b_10`, CRCRD presented in order
answer last what CRC11 answers with `DIN[95:8] = {b_0, ..., b_10}`; each of the thirteen words with any `DIN` of its own
(`d0`, the eleven of `ds`, `d12`). -/
def Obligations.StreamEqualsCrc11 : Prop :=
  ∀ (s u : State) (v d0 d12 : Data) (ds : List Data) (rest : List HostInput),
    s.cfg.crcPoly ≠ 0x00#8 → s.inReset = false → u.cfg = s.cfg → u.din = v → ds.length = 11 →
    s.inputs = .command ⟨0x02000000#32, d0⟩ ::
      (List.zipWith (fun b d => .command ⟨0x03#8 ++ 0#16 ++ b, d⟩)
        [v.extractLsb' 88 8, v.extractLsb' 80 8, v.extractLsb' 72 8, v.extractLsb' 64 8, v.extractLsb' 56 8,
         v.extractLsb' 48 8, v.extractLsb' 40 8, v.extractLsb' 32 8, v.extractLsb' 24 8, v.extractLsb' 16 8,
         v.extractLsb' 8 8] ds) ++
      .command ⟨0x04000000#32, d12⟩ :: rest →
    ∃ t, stepMany 13 s = some t ∧ t.inputs = rest ∧ t.responses.head?.isSome = true ∧
      t.responses.head? = answerOf (exec .crc11 u)

/-! ## Worker identity and packer -/

/-- R100. SETWID: with the identity not captured it writes `S.WID`, `S.WIDV` and `S.IDR[31:8]` and answers OK, every
other bit unchanged; captured, it answers LOCKED and changes nothing, the same value or not; it is never ILLEGAL; the
example. -/
def Obligations.SetwidCapturesOnce : Prop :=
  (∀ (w : Word24) (s : State), s.widv = false → exec (.setwid w) s =
    .next { s.answered ⟨.ok, 0#96⟩ with
      wid := w, widv := true, idr := s.idr.extractLsb' 32 64 ++ w ++ s.idr.extractLsb' 0 8 }) ∧
  (∀ (w : Word24) (s : State), s.widv = true → exec (.setwid w) s = .next (s.answered ⟨.locked, 0#96⟩)) ∧
  (∀ w : Word24, decode (0x10#8 ++ w) = .command (.setwid w)) ∧
  (∀ cfg : Config, ∃ t, exec (.setwid 0xAAAAAA#24) (State.resetWith cfg) = .next t ∧ t.wid = 0xAAAAAA#24 ∧
    t.widv = true ∧ t.idr = 0x0000000000000000AAAAAA00#96 ∧ t.responses = [⟨.ok, 0#96⟩])

/-- R101. PACK: with the identity captured it writes the identifier `{4'h1, DIN[51:0], c, S.WID, checksum}` to `S.IDR`
and answers OK with it, nothing else changed; not captured, it answers NOWID and changes nothing; a second PACK with the
same timestamp and counter returns the same identifier; reserved bits set give ILLEGAL; the largest inputs; the
example. -/
def Obligations.PackAssemblesIdentifier : Prop :=
  (∀ (c : Byte) (s : State), s.widv = true →
    ∃ (v88 : BitVec 88) (id : Data), v88 = 0x1#4 ++ s.din.extractLsb' 0 52 ++ c ++ s.wid ∧
      id = v88 ++ crc8 s.cfg
        [v88.extractLsb' 80 8, v88.extractLsb' 72 8, v88.extractLsb' 64 8, v88.extractLsb' 56 8, v88.extractLsb' 48 8,
         v88.extractLsb' 40 8, v88.extractLsb' 32 8, v88.extractLsb' 24 8, v88.extractLsb' 16 8, v88.extractLsb' 8 8,
         v88.extractLsb' 0 8] ∧
      exec (.pack c) s = .next { s.answered ⟨.ok, id⟩ with idr := id }) ∧
  (∀ (c : Byte) (s : State), s.widv = false → exec (.pack c) s = .next (s.answered ⟨.nowid, 0#96⟩)) ∧
  (∀ (c : Byte) (s t : State), s.widv = true → exec (.pack c) s = .next t →
    ∀ u : State, u.cfg = t.cfg → u.wid = t.wid → u.widv = t.widv → u.din.extractLsb' 0 52 = s.din.extractLsb' 0 52 →
      answerOf (exec (.pack c) u) = answerOf (exec (.pack c) s)) ∧
  (∀ c : Byte, decode (0x11#8 ++ 0#16 ++ c) = .command (.pack c)) ∧
  (∀ (h : BitVec 16) (b : Byte), h ≠ 0#16 → decode (0x11#8 ++ h ++ b) = .illegal .reservedBits) ∧
  packTimeWord (BitVec.allOnes 52) 0xFF#8 = 0x1FFFFFFFFFFFFFFF#64 ∧
  (∀ s : State, s.cfg = Config.default → s.widv = true → s.wid = 0xAAAAAA#24 → s.din = 0x65FF4E04C0000#96 →
    ∃ t, exec (.pack 0x00#8) s = .next t ∧ t.idr = 0x165FF4E04C000000AAAAAAAF#96 ∧
      t.responses.head? = some ⟨.ok, 0x165FF4E04C000000AAAAAAAF#96⟩)

/-- R102. RDID answers OK with a copy of `S.IDR` and changes nothing; after reset it answers zeros, after SETWID and
before any PACK the identity in bytes 8 to 10 and zeros elsewhere; VALID of either answers EVER; reserved bits set give
ILLEGAL. -/
def Obligations.RdidReadsIdentifier : Prop :=
  (∀ s : State, exec .rdid s = .next (s.answered ⟨.ok, s.idr⟩)) ∧
  (∀ cfg : Config, answerOf (exec .rdid (State.resetWith cfg)) = some ⟨.ok, 0#96⟩) ∧
  (∀ (cfg : Config) (w : Word24) (t : State), exec (.setwid w) (State.resetWith cfg) = .next t →
    answerOf (exec .rdid t) = some ⟨.ok, 0#64 ++ w ++ 0#8⟩) ∧
  (∀ (s : State) (w : Word24), s.din = 0#96 ∨ s.din = 0#64 ++ w ++ 0#8 →
    answerOf (exec (.valid 12#24) s) = some ⟨.ever, 0x100#96⟩) ∧
  decode 0x12000000#32 = .command .rdid ∧
  (∀ h : Word24, h ≠ 0#24 → decode (0x12#8 ++ h) = .illegal .reservedBits)

/-- R103. The fields of an identifier an accepted PACK returns. -/
def Obligations.PackedFields : Prop :=
  ∀ (c : Byte) (s : State), s.widv = true →
    ∃ t id, exec (.pack c) s = .next t ∧ t.idr = id ∧ t.responses = ⟨.ok, id⟩ :: s.responses ∧
      id.extractLsb' 92 4 = 0x1#4 ∧ id.extractLsb' 40 52 = s.din.extractLsb' 0 52 ∧ id.extractLsb' 32 8 = c ∧
      id.extractLsb' 8 24 = s.wid ∧
      id.extractLsb' 0 8 = crc8 s.cfg
        [id.extractLsb' 88 8, id.extractLsb' 80 8, id.extractLsb' 72 8, id.extractLsb' 64 8, id.extractLsb' 56 8,
         id.extractLsb' 48 8, id.extractLsb' 40 8, id.extractLsb' 32 8, id.extractLsb' 24 8, id.extractLsb' 16 8,
         id.extractLsb' 8 8]

/-- R104. Every identifier an accepted PACK returns passes VALID. -/
def Obligations.PackedIdentifierPassesValid : Prop :=
  ∀ (c : Byte) (s u : State) (id : Data), s.widv = true → answerOf (exec (.pack c) s) = some ⟨.ok, id⟩ →
    u.cfg = s.cfg → u.din = id → exec (.valid 12#24) u = .next (u.answered ⟨.ok, 0#96⟩)

/-- R105. Two accepted PACKs after the same SETWID: their identifiers compare, as unsigned 96-bit numbers, exactly as
their time-words do as unsigned 64-bit numbers. -/
def Obligations.PackedOrderIsTimeWordOrder : Prop :=
  ∀ (s1 s2 : State) (c1 c2 : Byte) (tw1 tw2 : TimeWord), s1.widv = true → ReachesWithoutReset s1 s2 →
    tw1 = 0x1#4 ++ s1.din.extractLsb' 0 52 ++ c1 → tw2 = 0x1#4 ++ s2.din.extractLsb' 0 52 ++ c2 →
    ∃ id1 id2, answerOf (exec (.pack c1) s1) = some ⟨.ok, id1⟩ ∧ answerOf (exec (.pack c2) s2) = some ⟨.ok, id2⟩ ∧
      (tw1.toNat < tw2.toNat ↔ id1.toNat < id2.toNat) ∧ (tw1 = tw2 ↔ id1 = id2)

/-! ## Validator -/

/-- R120. VALID: length, then version, then checksum, with the details of each failure; OK when all pass; no state
written; never ILLEGAL; the example. -/
def Obligations.ValidChecksCandidate : Prop :=
  (∀ (len : Word24) (s : State), len ≠ 12#24 → exec (.valid len) s = .next (s.answered ⟨.elen, 0#72 ++ len⟩)) ∧
  (∀ s : State, s.din.extractLsb' 92 4 ≠ 0x1#4 →
    exec (.valid 12#24) s = .next (s.answered ⟨.ever, 0#84 ++ 0x1#4 ++ 0x0#4 ++ s.din.extractLsb' 92 4⟩)) ∧
  (∀ (s : State) (e : Byte), s.din.extractLsb' 92 4 = 0x1#4 →
    e = crc8 s.cfg
      [s.din.extractLsb' 88 8, s.din.extractLsb' 80 8, s.din.extractLsb' 72 8, s.din.extractLsb' 64 8,
       s.din.extractLsb' 56 8, s.din.extractLsb' 48 8, s.din.extractLsb' 40 8, s.din.extractLsb' 32 8,
       s.din.extractLsb' 24 8, s.din.extractLsb' 16 8, s.din.extractLsb' 8 8] →
    exec (.valid 12#24) s = .next (s.answered
      (if e = s.din.extractLsb' 0 8 then ⟨.ok, 0#96⟩ else ⟨.ecrc, 0#80 ++ e ++ s.din.extractLsb' 0 8⟩))) ∧
  (∀ u : Word24, decode (0x20#8 ++ u) = .command (.valid u)) ∧
  (∀ s : State, s.cfg = Config.default → s.din = 0x165FF4E04C000000AAAAAA00#96 →
    answerOf (exec (.valid 12#24) s) = some ⟨.ecrc, 0xAF00#96⟩)

/-- R121. A candidate of `n` bytes is presented with its length, saturated at `0xFFFFFF`; the operand is 12 exactly when
the length is 12; every other length answers ELEN with the presented length, whatever `DIN` is. -/
def Obligations.CandidateLengthSaturates : Prop :=
  (∀ n : Nat, (presentedLength n).toNat = min n 0xFFFFFF) ∧
  (∀ n : Nat, presentedLength n = 12#24 ↔ n = 12) ∧
  (∀ (n : Nat) (s : State), n ≠ 12 →
    exec (.valid (presentedLength n)) s = .next (s.answered ⟨.elen, 0#72 ++ presentedLength n⟩))

/-- R122. Validation is pure: a VALID presented before any sequence of inputs leaves every later state and response as
they are without it, but for its own response; and its response is a function of the parameters, the length and the
candidate alone. -/
def Obligations.ValidationIsPure : Prop :=
  (∀ (s : State) (c : Command) (len : Word24) (rest : List HostInput), s.cfg.crcPoly ≠ 0x00#8 → s.inReset = false →
    s.inputs = .command c :: rest → decode c.cmd = .command (.valid len) →
    ∃ r : Response, ∀ (k : Nat) (t : State), stepMany k { s with inputs := rest } = some t →
      ∃ new : List Response, t.responses = new ++ s.responses ∧
        stepMany (k + 1) s = some { t with responses := new ++ r :: s.responses }) ∧
  (∀ (s u : State) (len : Word24), s.cfg = u.cfg → s.din = u.din →
    answerOf (exec (.valid len) s) = answerOf (exec (.valid len) u))

/-- R123, R154. Exactly one status per VALID, that of the first failing check in the order length, version, checksum. -/
def Obligations.FirstFailingCheckIsReported : Prop :=
  ∀ (len : Word24) (s : State), ∃ r, exec (.valid len) s = .next (s.answered r) ∧
    (r.st = .elen ↔ len ≠ 12#24) ∧
    (r.st = .ever ↔ len = 12#24 ∧ s.din.extractLsb' 92 4 ≠ 0x1#4) ∧
    (r.st = .ecrc ↔ len = 12#24 ∧ s.din.extractLsb' 92 4 = 0x1#4 ∧ checksum s.cfg s.din ≠ s.din.extractLsb' 0 8) ∧
    (r.st = .ok ↔ len = 12#24 ∧ s.din.extractLsb' 92 4 = 0x1#4 ∧ checksum s.cfg s.din = s.din.extractLsb' 0 8)

/-- R124. Flip exactly one bit of a candidate that VALID accepts: EVER with the observed version for the version nibble,
ECRC for the others, with the computed CRC changed and byte 11 not for bytes 0 to 10, and the other way round for byte
11; so never OK. -/
def Obligations.SingleBitCorruptionIsCaught : Prop :=
  ∀ (s u : State) (j : Nat), s.cfg.crcPoly ≠ 0x00#8 → u.cfg = s.cfg → j < 96 →
    answerOf (exec (.valid 12#24) s) = some ⟨.ok, 0#96⟩ → u.din = s.din ^^^ (1#96 <<< j) →
    (92 ≤ j → answerOf (exec (.valid 12#24) u) =
      some ⟨.ever, 0#84 ++ 0x1#4 ++ 0x0#4 ++ (0x1#4 ^^^ (0x1#4 <<< (j - 92)))⟩) ∧
    (8 ≤ j → j ≤ 91 → ∃ e : Byte, e ≠ s.din.extractLsb' 0 8 ∧
      answerOf (exec (.valid 12#24) u) = some ⟨.ecrc, 0#80 ++ e ++ s.din.extractLsb' 0 8⟩) ∧
    (j ≤ 7 → answerOf (exec (.valid 12#24) u) =
      some ⟨.ecrc, 0#80 ++ s.din.extractLsb' 0 8 ++ (s.din.extractLsb' 0 8 ^^^ (1#8 <<< j))⟩)

/-- R125. Every candidate of length 12 with a version other than 1 gives EVER, whatever its checksum byte. -/
def Obligations.WrongVersionIsRejected : Prop :=
  ∀ (s : State) (ver : BitVec 4) (body : BitVec 84) (ck : Byte), ver ≠ 0x1#4 → s.din = ver ++ body ++ ck →
    exec (.valid 12#24) s = .next (s.answered ⟨.ever, 0#84 ++ 0x1#4 ++ 0x0#4 ++ ver⟩)

/-! ## NOP, illegal words, status codes -/

/-- R140. NOP answers OK with zero and changes nothing; reserved bits set give ILLEGAL. -/
def Obligations.NopOnlyAnswers : Prop :=
  (∀ s : State, exec .nop s = .next (s.answered ⟨.ok, 0#96⟩)) ∧
  decode 0x00000000#32 = .command .nop ∧
  (∀ h : Word24, h ≠ 0#24 → decode (0x00#8 ++ h) = .illegal .reservedBits) ∧
  decode 0x00000001#32 = .illegal .reservedBits

/-- R141. An illegal word is answered ILLEGAL with zero, whatever `DIN` is; no state is written; the next command is
accepted and executed as if the illegal one had not been there. The four examples are illegal. -/
def Obligations.IllegalCommandIsAnswered : Prop :=
  (∀ (s : State) (w : Word) (d : Data) (rest : List HostInput) (why : Illegal), s.cfg.crcPoly ≠ 0x00#8 →
    s.inReset = false → s.inputs = .command ⟨w, d⟩ :: rest → decode w = .illegal why →
    step s = .next { s with inputs := rest, responses := ⟨.illegal, 0#96⟩ :: s.responses }) ∧
  (∀ w ∈ [0x06000000#32, 0x00000001#32, 0x04000100#32, 0x11000100#32], ∃ why, decode w = .illegal why)

/-- A step executes the decoded command: when the word at the port, outside reset, decodes to `i`, the step is `exec i`;
the step consumes nothing more and adds nothing around it. The second clause says the same of a word placed by
`withFetchWord`; it is the model's, not the spec's: that a program is presented from outside, with the data operand 0 and
the reset line released, is the DESIGN CHOICE of notes/assumptions/5.md, and the word `decodeTableWord` reads that of
notes/assumptions/15.md. -/
def Obligations.StepExecutesDecodedCommand : Prop :=
  (∀ (s : State) (c : Command) (rest : List HostInput) (i : Instr), s.cfg.crcPoly ≠ 0x00#8 → s.inReset = false →
    s.inputs = .command c :: rest → decode c.cmd = .command i → step s = exec i s) ∧
  (∀ (s : State) (w : Word) (i : Instr), s.cfg.crcPoly ≠ 0x00#8 → decode w = .command i →
    decodeTableWord 32 w.toNat = some i ∧
    step (s.withFetchWord 32 w.toNat) = exec i (s.withFetchWord 32 w.toNat))

/-- R150. The status codes, what produces each, and the `DOUT` of each, of every response of every step. The codes `0x7`
to `0xF` are never produced. -/
def Obligations.StatusCodes : Prop :=
  ∀ (s t : State) (r : Response), step s = .next t → t.responses = r :: s.responses →
    ∃ (c : Command) (rest : List HostInput), s.inputs = .command c :: rest ∧ r.st.code.toNat < 7 ∧
      ((r.st.code = 0x0#4 ∧ r.st = .ok ∧ ∃ i, decode c.cmd = .command i) ∨
       (r.st.code = 0x1#4 ∧ r.st = .illegal ∧ r.dout = 0#96 ∧ ∃ why, decode c.cmd = .illegal why) ∨
       (r.st.code = 0x2#4 ∧ r.st = .locked ∧ r.dout = 0#96 ∧ s.widv = true ∧
          ∃ w, decode c.cmd = .command (.setwid w)) ∨
       (r.st.code = 0x3#4 ∧ r.st = .nowid ∧ r.dout = 0#96 ∧ s.widv = false ∧
          ∃ b, decode c.cmd = .command (.pack b)) ∨
       (r.st.code = 0x4#4 ∧ r.st = .elen ∧ ∃ len, decode c.cmd = .command (.valid len) ∧ r.dout = 0#72 ++ len) ∨
       (r.st.code = 0x5#4 ∧ r.st = .ever ∧ (∃ len, decode c.cmd = .command (.valid len)) ∧
          r.dout = 0#84 ++ 0x1#4 ++ 0x0#4 ++ c.din.extractLsb' 92 4) ∨
       (r.st.code = 0x6#4 ∧ r.st = .ecrc ∧ (∃ len, decode c.cmd = .command (.valid len)) ∧
          r.dout = 0#80 ++ checksum s.cfg c.din ++ c.din.extractLsb' 0 8))

/-- R151. Errors are in-band: a step that answers a status other than OK changes no state, stores nothing, and does not
stop the block: it can take its next step. -/
def Obligations.ErrorsChangeNothing : Prop :=
  ∀ (s t : State) (r : Response), step s = .next t → t.responses = r :: s.responses → r.st ≠ .ok →
    t = s.answered r ∧ ∃ u, step t = .next u

/-- R152. Once the identity is captured, and until reset, PACK always succeeds. -/
def Obligations.CapturedPackAlwaysSucceeds : Prop :=
  ∀ (s t : State) (c : Byte), s.widv = true → ReachesWithoutReset s t →
    ∃ u id, exec (.pack c) t = .next u ∧ u.responses = ⟨.ok, id⟩ :: t.responses

/-- R153. One status per command: an illegal word gives ILLEGAL whatever its opcode would do; for a legal word only that
command's own statuses occur. -/
def Obligations.OwnStatusesOnly : Prop :=
  (∀ (s : State) (c : Command) (rest : List HostInput) (why : Illegal), s.cfg.crcPoly ≠ 0x00#8 → s.inReset = false →
    s.inputs = .command c :: rest → decode c.cmd = .illegal why → answerOf (step s) = some ⟨.illegal, 0#96⟩) ∧
  (∀ (i : Instr) (s : State), ∃ r, answerOf (exec i s) = some r ∧
    ((∀ w, i ≠ .setwid w) → (∀ c, i ≠ .pack c) → (∀ len, i ≠ .valid len) → r.st = .ok) ∧
    (∀ w, i = .setwid w → r.st = .ok ∨ r.st = .locked) ∧
    (∀ c, i = .pack c → r.st = .ok ∨ r.st = .nowid) ∧
    (∀ len, i = .valid len → r.st = .ok ∨ r.st = .elen ∨ r.st = .ever ∨ r.st = .ecrc))

/-! ## Reset and hazards -/

/-- Reset puts every state element at its reset value and leaves the table; the first command after reset sees those
values (R170). That reset is a line driven between commands, and that its release changes nothing, is the model's choice
(notes/assumptions/7.md); so are the defaults in State.reset (notes/assumptions/2.md). -/
def Obligations.ResetPutsState : Prop :=
  (∀ (s : State) (rest : List HostInput), s.cfg.crcPoly ≠ 0x00#8 → s.inputs = .resetLine true :: rest →
    step s = .next
      { s with
        acc := s.cfg.crcInit, wid := 0x000000#24, widv := false, idr := 0#96, inReset := true, inputs := rest }) ∧
  (∀ (s : State) (rest : List HostInput), s.cfg.crcPoly ≠ 0x00#8 →
    s.inputs = .resetLine true :: .resetLine false :: rest →
    stepMany 2 s = some
      { s with
        acc := s.cfg.crcInit, wid := 0x000000#24, widv := false, idr := 0#96, inReset := false, inputs := rest }) ∧
  (∀ cfg : Config, State.resetWith cfg =
    { cfg := cfg, acc := cfg.crcInit, wid := 0x000000#24, widv := false, idr := 0#96,
      inReset := false, inputs := [], responses := [] }) ∧
  State.reset = State.resetWith Config.default

/-- R172. A command presented while reset is asserted is not executed and gets no response; however many are presented,
the state stays as it is until reset is released. (The reset line as one of the host's inputs is the model's,
notes/assumptions/7.md.) -/
def Obligations.NoCommandDuringReset : Prop :=
  ∀ (cs : List Command) (s : State) (rest : List HostInput), s.cfg.crcPoly ≠ 0x00#8 → s.inReset = true →
    s.inputs = cs.map .command ++ rest → stepMany cs.length s = some { s with inputs := rest }

/-- R173. Reset is the only way to clear `S.WIDV` and so the only way to change the worker identity; and it does clear
it. -/
def Obligations.OnlyResetClearsIdentity : Prop :=
  (∀ s t : State, s.widv = true → ReachesWithoutReset s t → t.widv = true ∧ t.wid = s.wid) ∧
  (∀ s t : State, s.Resets → step s = .next t → t.widv = false)

/-- R174. From every state with the identity not captured, so from the state after reset, a PACK answers NOWID after any
run in which no SETWID has been executed, whatever else has been; once one has been executed every PACK answers OK with
that identity, until reset. No other initialisation is needed: the table is ready, `S.ACC` holds `CRC_INIT`, so that the
first CRCB after reset needs no CRCINIT, and every command but PACK, VALID aside with its own verdict, answers OK. -/
def Obligations.InitialisationOrder : Prop :=
  (∀ (s t : State) (c : Byte), s.widv = false → ReachesWithoutSetwid s t →
    t.widv = false ∧ exec (.pack c) t = .next (t.answered ⟨.nowid, 0#96⟩)) ∧
  (∀ (cfg : Config) (ins : List HostInput) (t : State) (c : Byte),
    ReachesWithoutSetwid { State.resetWith cfg with inputs := ins } t →
    exec (.pack c) t = .next (t.answered ⟨.nowid, 0#96⟩)) ∧
  (∀ (s t u : State) (w : Word24) (c : Byte), s.widv = false → exec (.setwid w) s = .next t →
    ReachesWithoutReset t u →
    ∃ v id, exec (.pack c) u = .next v ∧ v.responses = ⟨.ok, id⟩ :: u.responses ∧ id.extractLsb' 8 24 = w) ∧
  (∀ (cfg : Config) (idx b : Byte),
    answerOf (exec (.tlook idx) (State.resetWith cfg)) = some ⟨.ok, 0#88 ++ tableEntry cfg idx⟩ ∧
    answerOf (exec (.crcb b) (State.resetWith cfg)) = some ⟨.ok, 0#88 ++ crc8 cfg [b]⟩) ∧
  (∀ (i : Instr) (s : State), s.widv = false → (∀ c, i ≠ .pack c) →
    ∃ r, answerOf (exec i s) = some r ∧ ((∀ len, i ≠ .valid len) → r.st = .ok) ∧
      (∀ len, i = .valid len → r.st = .ok ∨ r.st = .elen ∨ r.st = .ever ∨ r.st = .ecrc))

/-- R176. No hazards: a PACK right after SETWID uses the new identity, and a CRCRD right after CRCB reads the new
`S.ACC`; stated of two words presented one after the other. -/
def Obligations.NextCommandSeesEarlierWrites : Prop :=
  (∀ (s : State) (w : Word24) (c : Byte) (d d' : Data) (rest : List HostInput), s.cfg.crcPoly ≠ 0x00#8 →
    s.inReset = false → s.widv = false →
    s.inputs = .command ⟨0x10#8 ++ w, d⟩ :: .command ⟨0x11#8 ++ 0#16 ++ c, d'⟩ :: rest →
    ∃ t id, stepMany 2 s = some t ∧ t.responses = ⟨.ok, id⟩ :: ⟨.ok, 0#96⟩ :: s.responses ∧ t.wid = w ∧
      id.extractLsb' 8 24 = w) ∧
  (∀ (s : State) (b : Byte) (d d' : Data) (rest : List HostInput), s.cfg.crcPoly ≠ 0x00#8 → s.inReset = false →
    s.inputs = .command ⟨0x03#8 ++ 0#16 ++ b, d⟩ :: .command ⟨0x04000000#32, d'⟩ :: rest →
    ∃ t, stepMany 2 s = some t ∧ t.acc = tableEntry s.cfg (s.acc ^^^ b) ∧
      t.responses.head? = some ⟨.ok, 0#88 ++ (tableEntry s.cfg (s.acc ^^^ b) ^^^ s.cfg.crcXorOut)⟩)

/-- With nothing presented the block waits: it holds its state for as long as it is not reset (R159). That an idle
step exists is the model's choice (notes/assumptions/4.md). -/
def Obligations.IdleBlockHoldsState : Prop :=
  ∀ (s : State) (k : Nat), s.cfg.crcPoly ≠ 0x00#8 → s.inputs = [] → stepMany k s = some s
end

