-- ==== Sys2Proof/Laws/Checksum.lean ====
section
/-! SUPPORT. What the table and the CRC function do, cited instead of unfolding them: the table is linear over XOR in
its index, and the CRC register is a fold over the bytes. -/

namespace Sys2Proof.Machine

/-- The one round of the configured form of the table (R80, R81). -/
def tableRound (cfg : Config) : Byte → Byte :=
  if cfg.crcReflect then tableRoundLsb cfg.crcPoly else tableRoundMsb cfg.crcPoly

theorem tableEntry_eq_rounds (cfg : Config) (i : Byte) :
    tableEntry cfg i = repeatRounds (tableRound cfg) 8 i := by
  unfold tableEntry tableRound
  split <;> rfl

theorem xor_poly_right (a b p : Byte) : (a ^^^ b) ^^^ p = a ^^^ (b ^^^ p) := BitVec.xor_assoc a b p

theorem xor_poly_left (a b p : Byte) : (a ^^^ b) ^^^ p = (a ^^^ p) ^^^ b := by ac_rfl

theorem xor_poly_both (a b p : Byte) : a ^^^ b = (a ^^^ p) ^^^ (b ^^^ p) := by
  rw [show (a ^^^ p) ^^^ (b ^^^ p) = (a ^^^ b) ^^^ (p ^^^ p) by ac_rfl, BitVec.xor_self, BitVec.xor_zero]

theorem tableRoundMsb_xor (p a b : Byte) :
    tableRoundMsb p (a ^^^ b) = tableRoundMsb p a ^^^ tableRoundMsb p b := by
  have hs : (a ^^^ b) <<< 1 = (a <<< 1) ^^^ (b <<< 1) := BitVec.shiftLeft_xor_distrib a b 1
  unfold tableRoundMsb
  rw [BitVec.getLsbD_xor, hs]
  cases a.getLsbD 7 <;> cases b.getLsbD 7 <;>
    simp only [if_true, if_false, Bool.xor_true, Bool.not_true, Bool.not_false, Bool.xor_false, Bool.false_eq_true]
  · exact xor_poly_right _ _ _
  · exact xor_poly_left _ _ _
  · exact xor_poly_both _ _ _

theorem tableRoundLsb_xor (p a b : Byte) :
    tableRoundLsb p (a ^^^ b) = tableRoundLsb p a ^^^ tableRoundLsb p b := by
  have hs : (a ^^^ b) >>> 1 = (a >>> 1) ^^^ (b >>> 1) := BitVec.ushiftRight_xor_distrib a b 1
  unfold tableRoundLsb
  rw [BitVec.getLsbD_xor, hs]
  cases a.getLsbD 0 <;> cases b.getLsbD 0 <;>
    simp only [if_true, if_false, Bool.xor_true, Bool.not_true, Bool.not_false, Bool.xor_false, Bool.false_eq_true]
  · exact xor_poly_right _ _ _
  · exact xor_poly_left _ _ _
  · exact xor_poly_both _ _ _

theorem tableRound_xor (cfg : Config) (a b : Byte) :
    tableRound cfg (a ^^^ b) = tableRound cfg a ^^^ tableRound cfg b := by
  unfold tableRound
  split
  · exact tableRoundLsb_xor _ _ _
  · exact tableRoundMsb_xor _ _ _

theorem repeatRounds_xor (f : Byte → Byte) (hf : ∀ a b, f (a ^^^ b) = f a ^^^ f b) (k : Nat) :
    ∀ a b, repeatRounds f k (a ^^^ b) = repeatRounds f k a ^^^ repeatRounds f k b := by
  induction k with
  | zero => intro a b; rfl
  | succ k ih => intro a b; simp only [repeatRounds, hf, ih]

/-- The table is linear over XOR in its index, in both forms (R80, R81). -/
theorem tableEntry_xor (cfg : Config) (a b : Byte) :
    tableEntry cfg (a ^^^ b) = tableEntry cfg a ^^^ tableEntry cfg b := by
  simp only [tableEntry_eq_rounds, repeatRounds_xor _ (tableRound_xor cfg)]

/-- Entry 0 is `0x00` for every parameter. -/
theorem tableEntry_zero (cfg : Config) : tableEntry cfg 0x00#8 = 0x00#8 := by
  have h := tableEntry_xor cfg 0x00#8 0x00#8
  simpa using h

/-- A table entry depends on `CRC_POLY` and `CRC_REFLECT` alone (R21). -/
theorem tableEntry_congr {c c' : Config} (hp : c.crcPoly = c'.crcPoly) (hr : c.crcReflect = c'.crcReflect) (i : Byte) :
    tableEntry c i = tableEntry c' i := by
  simp [tableEntry, hp, hr]

@[simp] theorem crcRegister_nil (cfg : Config) (c : Byte) : crcRegister cfg c [] = c := rfl

@[simp] theorem crcRegister_cons (cfg : Config) (c b : Byte) (bs : List Byte) :
    crcRegister cfg c (b :: bs) = crcRegister cfg (tableEntry cfg (c ^^^ b)) bs := rfl

theorem crcRegister_append (cfg : Config) (bs cs : List Byte) :
    ∀ c, crcRegister cfg c (bs ++ cs) = crcRegister cfg (crcRegister cfg c bs) cs := by
  induction bs with
  | nil => intro c; rfl
  | cons b bs ih => intro c; simp [ih]

/-- Two registers that start apart stay apart by the linear part alone: the bytes fed cancel. -/
theorem crcRegister_xor (cfg : Config) (bs : List Byte) :
    ∀ c d, crcRegister cfg (c ^^^ d) bs
      = crcRegister cfg c bs ^^^ repeatRounds (tableEntry cfg) bs.length d := by
  induction bs with
  | nil => intro c d; rfl
  | cons b bs ih =>
    intro c d
    have h : c ^^^ d ^^^ b = (c ^^^ b) ^^^ d := by ac_rfl
    simp only [crcRegister_cons, h, tableEntry_xor, ih, List.length_cons, repeatRounds]

theorem crcFinish_inj {cfg : Config} {a b : Byte} : crcFinish cfg a = crcFinish cfg b ↔ a = b := by
  simp [crcFinish]

end Sys2Proof.Machine
end

