-- ==== Sys2Proof/Laws/Decode.lean ====
section
/-! SUPPORT. The fields of the words the encoder forms (R61). -/

namespace Sys2Proof

@[simp] theorem opcOf_formN (o : Byte) : opcOf (formN o) = o := by
  apply BitVec.eq_of_getLsbD_eq
  intro i hi
  simp only [opcOf, formN, BitVec.getLsbD_extractLsb', BitVec.getLsbD_append]
  simp [hi]

@[simp] theorem opcOf_formB (o b : Byte) : opcOf (formB o b) = o := by
  apply BitVec.eq_of_getLsbD_eq
  intro i hi
  simp only [opcOf, formB, BitVec.getLsbD_extractLsb', BitVec.getLsbD_append]
  have h1 : ¬ (24 + i < 8) := by omega
  have h2 : ¬ (24 + i - 8 < 16) := by omega
  have h3 : 24 + i - 8 - 16 = i := by omega
  simp [hi, h1, h2, h3]

@[simp] theorem opcOf_formW (o : Byte) (u : Word24) : opcOf (formW o u) = o := by
  apply BitVec.eq_of_getLsbD_eq
  intro i hi
  simp only [opcOf, formW, BitVec.getLsbD_extractLsb', BitVec.getLsbD_append]
  simp [hi]

@[simp] theorem immOf_formN (o : Byte) : immOf (formN o) = 0#24 := by
  apply BitVec.eq_of_getLsbD_eq
  intro i hi
  simp only [immOf, formN, BitVec.getLsbD_extractLsb', BitVec.getLsbD_append]
  simp [hi]

@[simp] theorem immOf_formW (o : Byte) (u : Word24) : immOf (formW o u) = u := by
  apply BitVec.eq_of_getLsbD_eq
  intro i hi
  simp only [immOf, formW, BitVec.getLsbD_extractLsb', BitVec.getLsbD_append]
  simp [hi]

@[simp] theorem b8Of_formB (o b : Byte) : b8Of (formB o b) = b := by
  apply BitVec.eq_of_getLsbD_eq
  intro i hi
  simp only [b8Of, formB, BitVec.getLsbD_extractLsb', BitVec.getLsbD_append]
  simp [hi]

@[simp] theorem reservedClear_formN (o : Byte) : reservedClear .n (formN o) = true := by
  simp [reservedClear]

@[simp] theorem reservedClear_formB (o b : Byte) : reservedClear .b (formB o b) = true := by
  have h : (formB o b).extractLsb' 8 16 = 0#16 := by
    apply BitVec.eq_of_getLsbD_eq
    intro i hi
    simp only [formB, BitVec.getLsbD_extractLsb', BitVec.getLsbD_append]
    have h1 : ¬ (8 + i < 8) := by omega
    simp only [h1, if_false, Nat.add_sub_cancel_left, hi, if_true, BitVec.getLsbD_zero, Bool.and_false]
  simp [reservedClear, h]

@[simp] theorem reservedClear_w (w : Word) : reservedClear .w w = true := rfl

end Sys2Proof
end

