-- ==== Sys2Proof/Laws/State.lean ====
section
/-! SUPPORT. One lemma per field per update of `State`: what each named operation leaves in each field, so that no later
proof unfolds a record update. -/

namespace Sys2Proof.Machine.State

@[simp] theorem takeInput_cfg (s : State) : s.takeInput.cfg = s.cfg := rfl
@[simp] theorem takeInput_acc (s : State) : s.takeInput.acc = s.acc := rfl
@[simp] theorem takeInput_wid (s : State) : s.takeInput.wid = s.wid := rfl
@[simp] theorem takeInput_widv (s : State) : s.takeInput.widv = s.widv := rfl
@[simp] theorem takeInput_idr (s : State) : s.takeInput.idr = s.idr := rfl
@[simp] theorem takeInput_inReset (s : State) : s.takeInput.inReset = s.inReset := rfl
@[simp] theorem takeInput_inputs (s : State) : s.takeInput.inputs = s.inputs.tail := rfl
@[simp] theorem takeInput_responses (s : State) : s.takeInput.responses = s.responses := rfl

@[simp] theorem respond_cfg (s : State) (st : Status) (d : Data) : (s.respond st d).cfg = s.cfg := rfl
@[simp] theorem respond_acc (s : State) (st : Status) (d : Data) : (s.respond st d).acc = s.acc := rfl
@[simp] theorem respond_wid (s : State) (st : Status) (d : Data) : (s.respond st d).wid = s.wid := rfl
@[simp] theorem respond_widv (s : State) (st : Status) (d : Data) : (s.respond st d).widv = s.widv := rfl
@[simp] theorem respond_idr (s : State) (st : Status) (d : Data) : (s.respond st d).idr = s.idr := rfl
@[simp] theorem respond_inReset (s : State) (st : Status) (d : Data) : (s.respond st d).inReset = s.inReset := rfl
@[simp] theorem respond_inputs (s : State) (st : Status) (d : Data) : (s.respond st d).inputs = s.inputs.tail := rfl
@[simp] theorem respond_responses (s : State) (st : Status) (d : Data) : (s.respond st d).responses = ⟨st, d⟩ :: s.responses := rfl

@[simp] theorem writeAcc_cfg (s : State) (a : Byte) : (s.writeAcc a).cfg = s.cfg := rfl
@[simp] theorem writeAcc_acc (s : State) (a : Byte) : (s.writeAcc a).acc = a := rfl
@[simp] theorem writeAcc_wid (s : State) (a : Byte) : (s.writeAcc a).wid = s.wid := rfl
@[simp] theorem writeAcc_widv (s : State) (a : Byte) : (s.writeAcc a).widv = s.widv := rfl
@[simp] theorem writeAcc_idr (s : State) (a : Byte) : (s.writeAcc a).idr = s.idr := rfl
@[simp] theorem writeAcc_inReset (s : State) (a : Byte) : (s.writeAcc a).inReset = s.inReset := rfl
@[simp] theorem writeAcc_inputs (s : State) (a : Byte) : (s.writeAcc a).inputs = s.inputs := rfl
@[simp] theorem writeAcc_responses (s : State) (a : Byte) : (s.writeAcc a).responses = s.responses := rfl

@[simp] theorem captureWid_cfg (s : State) (w : Word24) : (s.captureWid w).cfg = s.cfg := rfl
@[simp] theorem captureWid_acc (s : State) (w : Word24) : (s.captureWid w).acc = s.acc := rfl
@[simp] theorem captureWid_wid (s : State) (w : Word24) : (s.captureWid w).wid = w := rfl
@[simp] theorem captureWid_widv (s : State) (w : Word24) : (s.captureWid w).widv = true := rfl
@[simp] theorem captureWid_idr (s : State) (w : Word24) : (s.captureWid w).idr = withWorker s.idr w := rfl
@[simp] theorem captureWid_inReset (s : State) (w : Word24) : (s.captureWid w).inReset = s.inReset := rfl
@[simp] theorem captureWid_inputs (s : State) (w : Word24) : (s.captureWid w).inputs = s.inputs := rfl
@[simp] theorem captureWid_responses (s : State) (w : Word24) : (s.captureWid w).responses = s.responses := rfl

@[simp] theorem writeIdr_cfg (s : State) (id : Data) : (s.writeIdr id).cfg = s.cfg := rfl
@[simp] theorem writeIdr_acc (s : State) (id : Data) : (s.writeIdr id).acc = s.acc := rfl
@[simp] theorem writeIdr_wid (s : State) (id : Data) : (s.writeIdr id).wid = s.wid := rfl
@[simp] theorem writeIdr_widv (s : State) (id : Data) : (s.writeIdr id).widv = s.widv := rfl
@[simp] theorem writeIdr_idr (s : State) (id : Data) : (s.writeIdr id).idr = id := rfl
@[simp] theorem writeIdr_inReset (s : State) (id : Data) : (s.writeIdr id).inReset = s.inReset := rfl
@[simp] theorem writeIdr_inputs (s : State) (id : Data) : (s.writeIdr id).inputs = s.inputs := rfl
@[simp] theorem writeIdr_responses (s : State) (id : Data) : (s.writeIdr id).responses = s.responses := rfl

@[simp] theorem applyReset_cfg (s : State) : s.applyReset.cfg = s.cfg := rfl
@[simp] theorem applyReset_acc (s : State) : s.applyReset.acc = s.cfg.crcInit := rfl
@[simp] theorem applyReset_wid (s : State) : s.applyReset.wid = 0#24 := rfl
@[simp] theorem applyReset_widv (s : State) : s.applyReset.widv = false := rfl
@[simp] theorem applyReset_idr (s : State) : s.applyReset.idr = 0#96 := rfl
@[simp] theorem applyReset_inReset (s : State) : s.applyReset.inReset = s.inReset := rfl
@[simp] theorem applyReset_inputs (s : State) : s.applyReset.inputs = s.inputs := rfl
@[simp] theorem applyReset_responses (s : State) : s.applyReset.responses = s.responses := rfl

@[simp] theorem present_cfg (s : State) (x : HostInput) : (s.present x).cfg = s.cfg := rfl
@[simp] theorem present_acc (s : State) (x : HostInput) : (s.present x).acc = s.acc := rfl
@[simp] theorem present_wid (s : State) (x : HostInput) : (s.present x).wid = s.wid := rfl
@[simp] theorem present_widv (s : State) (x : HostInput) : (s.present x).widv = s.widv := rfl
@[simp] theorem present_idr (s : State) (x : HostInput) : (s.present x).idr = s.idr := rfl
@[simp] theorem present_inReset (s : State) (x : HostInput) : (s.present x).inReset = s.inReset := rfl
@[simp] theorem present_inputs (s : State) (x : HostInput) : (s.present x).inputs = s.inputs ++ [x] := rfl
@[simp] theorem present_responses (s : State) (x : HostInput) : (s.present x).responses = s.responses := rfl

@[simp] theorem presentNext_cfg (s : State) (c : Command) : (s.presentNext c).cfg = s.cfg := rfl
@[simp] theorem presentNext_acc (s : State) (c : Command) : (s.presentNext c).acc = s.acc := rfl
@[simp] theorem presentNext_wid (s : State) (c : Command) : (s.presentNext c).wid = s.wid := rfl
@[simp] theorem presentNext_widv (s : State) (c : Command) : (s.presentNext c).widv = s.widv := rfl
@[simp] theorem presentNext_idr (s : State) (c : Command) : (s.presentNext c).idr = s.idr := rfl
@[simp] theorem presentNext_inReset (s : State) (c : Command) : (s.presentNext c).inReset = false := rfl
@[simp] theorem presentNext_inputs (s : State) (c : Command) : (s.presentNext c).inputs = .command c :: s.inputs := rfl
@[simp] theorem presentNext_responses (s : State) (c : Command) : (s.presentNext c).responses = s.responses := rfl

@[simp] theorem assertReset_cfg (s : State) : (s.driveReset true).cfg = s.cfg := rfl
@[simp] theorem assertReset_acc (s : State) : (s.driveReset true).acc = s.cfg.crcInit := rfl
@[simp] theorem assertReset_wid (s : State) : (s.driveReset true).wid = 0#24 := rfl
@[simp] theorem assertReset_widv (s : State) : (s.driveReset true).widv = false := rfl
@[simp] theorem assertReset_idr (s : State) : (s.driveReset true).idr = 0#96 := rfl
@[simp] theorem assertReset_inReset (s : State) : (s.driveReset true).inReset = true := rfl
@[simp] theorem assertReset_inputs (s : State) : (s.driveReset true).inputs = s.inputs.tail := rfl
@[simp] theorem assertReset_responses (s : State) : (s.driveReset true).responses = s.responses := rfl

@[simp] theorem releaseReset_cfg (s : State) : (s.driveReset false).cfg = s.cfg := rfl
@[simp] theorem releaseReset_acc (s : State) : (s.driveReset false).acc = s.acc := rfl
@[simp] theorem releaseReset_wid (s : State) : (s.driveReset false).wid = s.wid := rfl
@[simp] theorem releaseReset_widv (s : State) : (s.driveReset false).widv = s.widv := rfl
@[simp] theorem releaseReset_idr (s : State) : (s.driveReset false).idr = s.idr := rfl
@[simp] theorem releaseReset_inReset (s : State) : (s.driveReset false).inReset = false := rfl
@[simp] theorem releaseReset_inputs (s : State) : (s.driveReset false).inputs = s.inputs.tail := rfl
@[simp] theorem releaseReset_responses (s : State) : (s.driveReset false).responses = s.responses := rfl

@[simp] theorem resetWith_cfg (cfg : Config) : (resetWith cfg).cfg = cfg := rfl
@[simp] theorem resetWith_acc (cfg : Config) : (resetWith cfg).acc = cfg.crcInit := rfl
@[simp] theorem resetWith_wid (cfg : Config) : (resetWith cfg).wid = 0#24 := rfl
@[simp] theorem resetWith_widv (cfg : Config) : (resetWith cfg).widv = false := rfl
@[simp] theorem resetWith_idr (cfg : Config) : (resetWith cfg).idr = 0#96 := rfl
@[simp] theorem resetWith_inReset (cfg : Config) : (resetWith cfg).inReset = false := rfl
@[simp] theorem resetWith_inputs (cfg : Config) : (resetWith cfg).inputs = [] := rfl
@[simp] theorem resetWith_responses (cfg : Config) : (resetWith cfg).responses = [] := rfl

/-- The data operand is that of the command at the port. -/
theorem din_of_command {s : State} {c : Command} {rest : List HostInput} (h : s.inputs = .command c :: rest) :
    s.din = c.din := by
  simp [State.din, h]

/-- The data operand depends on what the host presents and on nothing else. -/
theorem din_congr {s t : State} (h : s.inputs = t.inputs) : s.din = t.din := by
  simp [State.din, h]

end Sys2Proof.Machine.State
end

