-- ==== Sys2Proof/Laws/Exec.lean ====
section
/-! SUPPORT. What an executed command and a step can do, said once: one equation per meaning, and the inversion lemmas
later proofs cite instead of unfolding `exec` and `step`. -/

namespace Sys2Proof.Machine

theorem exec_setwid_locked {s : State} (h : s.widv = true) (w : Word24) :
    exec (.setwid w) s = .next (s.respond .locked 0#96) := by
  simp [exec, execSetwid, h]

theorem exec_setwid_captures {s : State} (h : s.widv = false) (w : Word24) :
    exec (.setwid w) s = .next ((s.captureWid w).respond .ok 0#96) := by
  simp [exec, execSetwid, h]

theorem exec_pack_nowid {s : State} (h : s.widv = false) (c : Byte) :
    exec (.pack c) s = .next (s.respond .nowid 0#96) := by
  simp [exec, execPack, h]

theorem exec_pack_packs {s : State} (h : s.widv = true) (c : Byte) :
    exec (.pack c) s
      = .next ((s.writeIdr (packIdentifier s.cfg (packTimeWord (dinTimestamp s.din) c) s.wid)).respond .ok
          (packIdentifier s.cfg (packTimeWord (dinTimestamp s.din) c) s.wid)) := by
  simp [exec, execPack, h]

/-- Everything an executed command can do: nothing but its response, a write of `S.ACC`, the capture of the identity,
or a packed identifier. -/
theorem exec_cases {i : Instr} {s t : State} (h : exec i s = .next t) :
    (∃ st d, t = s.respond st d) ∨
    (∃ a d, t = (s.writeAcc a).respond .ok d ∧ (i = .crcinit ∨ ∃ b, i = .crcb b)) ∨
    (∃ w, i = .setwid w ∧ s.widv = false ∧ t = (s.captureWid w).respond .ok 0#96) ∨
    (∃ c id, i = .pack c ∧ s.widv = true ∧ id = packIdentifier s.cfg (packTimeWord (dinTimestamp s.din) c) s.wid ∧
      t = (s.writeIdr id).respond .ok id) := by
  cases i with
  | nop => exact .inl ⟨_, _, (Host.Outcome.next.inj h).symm⟩
  | tlook idx => exact .inl ⟨_, _, (Host.Outcome.next.inj h).symm⟩
  | crcinit => exact .inr (.inl ⟨_, _, (Host.Outcome.next.inj h).symm, .inl rfl⟩)
  | crcb b => exact .inr (.inl ⟨_, _, (Host.Outcome.next.inj h).symm, .inr ⟨b, rfl⟩⟩)
  | crcrd => exact .inl ⟨_, _, (Host.Outcome.next.inj h).symm⟩
  | crc11 => exact .inl ⟨_, _, (Host.Outcome.next.inj h).symm⟩
  | setwid w =>
    cases hw : s.widv with
    | true =>
      rw [exec_setwid_locked hw] at h
      exact .inl ⟨_, _, (Host.Outcome.next.inj h).symm⟩
    | false =>
      rw [exec_setwid_captures hw] at h
      exact .inr (.inr (.inl ⟨w, rfl, rfl, (Host.Outcome.next.inj h).symm⟩))
  | pack c =>
    cases hw : s.widv with
    | true =>
      rw [exec_pack_packs hw] at h
      exact .inr (.inr (.inr ⟨c, _, rfl, rfl, rfl, (Host.Outcome.next.inj h).symm⟩))
    | false =>
      rw [exec_pack_nowid hw] at h
      exact .inl ⟨_, _, (Host.Outcome.next.inj h).symm⟩
  | rdid => exact .inl ⟨_, _, (Host.Outcome.next.inj h).symm⟩
  | valid len => exact .inl ⟨_, _, (Host.Outcome.next.inj h).symm⟩

/-- Under an accepted configuration (R8) a step is the port's. -/
theorem step_eq_runPort {s : State} (h : s.cfg.crcPoly ≠ 0x00#8) : step s = runPort s := by
  simp [step, Config.accepted, h]

/-- With nothing presented the block waits. -/
theorem runPort_idle {s : State} (h : s.inputs = []) : runPort s = .next s := by
  simp [runPort, h]

theorem runPort_reset {s : State} {lvl : Bool} {rest : List HostInput} (h : s.inputs = .resetLine lvl :: rest) :
    runPort s = .next (s.driveReset lvl) := by
  simp [runPort, h]

theorem runPort_held {s : State} {c : Command} {rest : List HostInput} (h : s.inputs = .command c :: rest)
    (hr : s.inReset = true) : runPort s = .next s.takeInput := by
  simp [runPort, h, hr]

theorem runPort_command {s : State} {c : Command} {rest : List HostInput} (h : s.inputs = .command c :: rest)
    (hr : s.inReset = false) : runPort s = runWord c.cmd s := by
  simp [runPort, h, hr]

/-- Everything a step that answers a next state can do. -/
theorem step_cases {s t : State} (h : step s = .next t) :
    s.cfg.accepted = true ∧
    ((s.inputs = [] ∧ t = s) ∨
     (∃ lvl rest, s.inputs = .resetLine lvl :: rest ∧ t = s.driveReset lvl) ∨
     (∃ c rest, s.inputs = .command c :: rest ∧ s.inReset = true ∧ t = s.takeInput) ∨
     (∃ c rest why, s.inputs = .command c :: rest ∧ s.inReset = false ∧ decode c.cmd = .illegal why ∧
        t = s.respond .illegal 0#96) ∨
     (∃ c rest i, s.inputs = .command c :: rest ∧ s.inReset = false ∧ decode c.cmd = .command i ∧
        exec i s = .next t)) := by
  cases ha : s.cfg.accepted with
  | false => simp [step, ha] at h
  | true =>
    refine ⟨rfl, ?_⟩
    simp only [step, ha, if_true] at h
    match hi : s.inputs with
    | [] =>
      rw [runPort_idle hi] at h
      exact .inl ⟨rfl, (Host.Outcome.next.inj h).symm⟩
    | .resetLine lvl :: rest =>
      rw [runPort_reset hi] at h
      exact .inr (.inl ⟨lvl, rest, rfl, (Host.Outcome.next.inj h).symm⟩)
    | .command c :: rest =>
      cases hr : s.inReset with
      | true =>
        rw [runPort_held hi hr] at h
        exact .inr (.inr (.inl ⟨c, rest, rfl, rfl, (Host.Outcome.next.inj h).symm⟩))
      | false =>
        rw [runPort_command hi hr, runWord] at h
        match hd : decode c.cmd with
        | .illegal why =>
          rw [hd] at h
          exact .inr (.inr (.inr (.inl ⟨c, rest, why, rfl, rfl, hd, (Host.Outcome.next.inj h).symm⟩)))
        | .command i =>
          rw [hd] at h
          exact .inr (.inr (.inr (.inr ⟨c, rest, i, rfl, rfl, hd, h⟩)))

end Sys2Proof.Machine
end

