-- ==== Sys2Proof/Laws/Operands.lean ====
section
/-! SUPPORT. The fields and bytes of an identifier, as bits. -/

namespace Sys2Proof.Machine

/-- Bit `j` of byte `k` of a 96-bit value is bit `88 - 8k + j` of the value (R40). -/
theorem byteOf_bit (v : Data) (k j : Nat) (hj : j < 8) :
    (byteOf v k).getLsbD j = v.getLsbD (88 - 8 * k + j) := by
  simp [byteOf, hj]

/-- Byte 11 is the checksum field (R42). -/
theorem byteOf_eleven (v : Data) : byteOf v 11 = checksumOf v := rfl

theorem withWorker_worker (v : Data) (w : Word24) : workerOf (withWorker v w) = w := by
  apply BitVec.eq_of_getLsbD_eq
  intro i hi
  simp only [workerOf, withWorker, BitVec.getLsbD_extractLsb', BitVec.getLsbD_append]
  have h1 : ¬ (8 + i < 8) := by omega
  have h2 : 8 + i - 8 = i := by omega
  simp [h1, h2, hi]

/-- Zero extension is zeros above: `zext_96` as a concatenation (R15). -/
theorem zext96_eq_append {n m : Nat} (h : m + n = 96) (v : BitVec n) : zext96 v = (0#m ++ v).cast h := by
  apply BitVec.eq_of_getLsbD_eq
  intro i hi
  simp only [zext96, BitVec.getLsbD_setWidth, BitVec.getLsbD_cast, BitVec.getLsbD_append, BitVec.getLsbD_zero]
  by_cases h1 : i < n
  · simp [h1, hi]
  · simp [h1, BitVec.getLsbD_of_ge v i (by omega)]

theorem zext96_byte (v : Byte) : zext96 v = 0#88 ++ v := zext96_eq_append rfl v

theorem lengthDetail_eq (len : Word24) : lengthDetail len = 0#72 ++ len := zext96_eq_append rfl len

theorem checksumDetail_eq (e o : Byte) : checksumDetail e o = 0#80 ++ (e ++ o) := zext96_eq_append rfl _

theorem versionDetail_eq (o : BitVec 4) : versionDetail o = 0#84 ++ (Config.version ++ 0x0#4 ++ o) :=
  zext96_eq_append rfl _

/-- The fields of a packed value `{tw, wid, ck}` (R101). -/
theorem timeWordOf_packed (tw : TimeWord) (wid : Word24) (ck : Byte) :
    timeWordOf ((tw ++ wid : BitVec 88) ++ ck) = tw := by
  apply BitVec.eq_of_getLsbD_eq
  intro i hi
  simp only [timeWordOf, BitVec.getLsbD_extractLsb', BitVec.getLsbD_append]
  have h1 : ¬ (32 + i < 8) := by omega
  have h2 : ¬ (32 + i - 8 < 24) := by omega
  have h3 : 32 + i - 8 - 24 = i := by omega
  simp [h1, h2, h3, hi]

theorem workerOf_packed (tw : TimeWord) (wid : Word24) (ck : Byte) :
    workerOf ((tw ++ wid : BitVec 88) ++ ck) = wid := by
  apply BitVec.eq_of_getLsbD_eq
  intro i hi
  simp only [workerOf, BitVec.getLsbD_extractLsb', BitVec.getLsbD_append]
  have h1 : ¬ (8 + i < 8) := by omega
  have h2 : 8 + i - 8 < 24 := by omega
  have h3 : 8 + i - 8 = i := by omega
  simp [h1, h3, hi]

theorem checksumOf_packed (v88 : BitVec 88) (ck : Byte) : checksumOf (v88 ++ ck) = ck := by
  apply BitVec.eq_of_getLsbD_eq
  intro i hi
  simp only [checksumOf, BitVec.getLsbD_extractLsb', BitVec.getLsbD_append]
  simp [hi]

theorem versionOf_eq_timeWord (v : Data) : versionOf v = (timeWordOf v).extractLsb' 60 4 := by
  apply BitVec.eq_of_getLsbD_eq
  intro i hi
  simp only [versionOf, timeWordOf, BitVec.getLsbD_extractLsb']
  have h1 : 60 + i < 64 := by omega
  have h2 : 32 + (60 + i) = 92 + i := by omega
  simp [h1, h2, hi]

/-- Bytes 0 to 10 of `{v88, ck}` are the bytes of `v88` (R40, R101). -/
theorem bytes0to10_packed (v88 : BitVec 88) (ck : Byte) : bytes0to10 (v88 ++ ck : Data) = bytes0to10 v88 := by
  apply List.map_congr_left
  intro k hk
  have hk : k < 11 := by simpa using hk
  apply BitVec.eq_of_getLsbD_eq
  intro i hi
  simp only [byteOf, BitVec.getLsbD_extractLsb', BitVec.getLsbD_append]
  have h1 : ¬ (96 - 8 - 8 * k + i < 8) := by omega
  have h2 : 96 - 8 - 8 * k + i - 8 = 88 - 8 - 8 * k + i := by omega
  rw [if_neg h1, h2]

end Sys2Proof.Machine
end

