-- ==== Sys2Proof/Laws/Packer.lean ====
section
/-! SUPPORT. What a packed identifier holds (R101), and when the validator accepts (R120): cited instead of unfolding
`packIdentifier` and `validate`. -/

namespace Sys2Proof.Machine

theorem packIdentifier_timeWord (cfg : Config) (tw : TimeWord) (wid : Word24) :
    timeWordOf (packIdentifier cfg tw wid) = tw := timeWordOf_packed tw wid _

theorem packIdentifier_worker (cfg : Config) (tw : TimeWord) (wid : Word24) :
    workerOf (packIdentifier cfg tw wid) = wid := workerOf_packed tw wid _

theorem packIdentifier_checksum (cfg : Config) (tw : TimeWord) (wid : Word24) :
    checksumOf (packIdentifier cfg tw wid) = checksum cfg (packIdentifier cfg tw wid) := by
  simp only [packIdentifier, checksumOf_packed, checksum, bytes0to10_packed]

theorem packTimeWord_version (ts : BitVec 52) (c : Byte) :
    (packTimeWord ts c).extractLsb' 60 4 = Config.version := by
  apply BitVec.eq_of_getLsbD_eq
  intro i hi
  simp only [packTimeWord, BitVec.getLsbD_extractLsb', BitVec.getLsbD_append]
  have h1 : ¬ (60 + i < 8) := by omega
  have h2 : ¬ (60 + i - 8 < 52) := by omega
  have h3 : 60 + i - 8 - 52 = i := by omega
  simp [h1, h2, h3, hi]

theorem packIdentifier_version (cfg : Config) (ts : BitVec 52) (c : Byte) (wid : Word24) :
    versionOf (packIdentifier cfg (packTimeWord ts c) wid) = Config.version := by
  rw [versionOf_eq_timeWord, packIdentifier_timeWord, packTimeWord_version]

/-- The validator accepts a 12-byte candidate exactly when its version is 1 and its checksum is right. -/
theorem validate_ok_iff (cfg : Config) (v : Data) :
    validate cfg Config.idLen v = ⟨.ok, 0#96⟩ ↔ versionOf v = Config.version ∧ checksum cfg v = checksumOf v := by
  unfold validate
  rw [if_neg (by simp)]
  by_cases hv : versionOf v = Config.version
  · rw [if_neg (by simp [hv])]
    by_cases hc : checksum cfg v = byteOf v 11
    · simp [hc, hv, byteOf_eleven]
    · rw [if_pos hc]
      rw [byteOf_eleven] at hc
      simp [hv, hc]
  · rw [if_pos hv]
    simp [hv]

end Sys2Proof.Machine
end

