-- ==== Sys2Proof/Laws/PerInstr.lean ====
section
/-! SUPPORT. Statements about every instruction as syntax, one lemma per constructor (LAWS.json). -/

namespace Sys2Proof.Laws.EncodesItsRow

/-- The word of a command has the opcode of the row of R64's table with its mnemonic, and the reserved bits of that
row's format are zero (R61). -/
def Statement (i : Instr) : Prop :=
  ∃ r ∈ opcodeTable, r.mnemonic = mnemonicOf i ∧ opcOf (encode i) = opcOf r.matchBits ∧
    reservedClear r.format (encode i) = true

theorem nop : Statement .nop := ⟨_, .head _, rfl, rfl, rfl⟩

theorem tlook (idx : Byte) : Statement (.tlook idx) := by
  refine ⟨opcodeTable[1], List.getElem_mem _, rfl, ?_, ?_⟩
  · simp [encode, opcodeTable]; rfl
  · simp [encode, opcodeTable]

theorem crcinit : Statement .crcinit := ⟨opcodeTable[2], List.getElem_mem _, rfl, rfl, rfl⟩

theorem crcb (b : Byte) : Statement (.crcb b) := by
  refine ⟨opcodeTable[3], List.getElem_mem _, rfl, ?_, ?_⟩
  · simp [encode, opcodeTable]; rfl
  · simp [encode, opcodeTable]

theorem crcrd : Statement .crcrd := ⟨opcodeTable[4], List.getElem_mem _, rfl, rfl, rfl⟩

theorem crc11 : Statement .crc11 := ⟨opcodeTable[5], List.getElem_mem _, rfl, rfl, rfl⟩

theorem setwid (w : Word24) : Statement (.setwid w) := by
  refine ⟨opcodeTable[6], List.getElem_mem _, rfl, ?_, ?_⟩
  · simp [encode, opcodeTable]; rfl
  · simp [encode, opcodeTable]

theorem pack (c : Byte) : Statement (.pack c) := by
  refine ⟨opcodeTable[7], List.getElem_mem _, rfl, ?_, ?_⟩
  · simp [encode, opcodeTable]; rfl
  · simp [encode, opcodeTable]

theorem rdid : Statement .rdid := ⟨opcodeTable[8], List.getElem_mem _, rfl, rfl, rfl⟩

theorem valid (len : Word24) : Statement (.valid len) := by
  refine ⟨opcodeTable[9], List.getElem_mem _, rfl, ?_, ?_⟩
  · simp [encode, opcodeTable]; rfl
  · simp [encode, opcodeTable]

end Sys2Proof.Laws.EncodesItsRow
end

