-- ==== Sys2Proof/Laws/Runs.lean ====
section
/-! SUPPORT. The inductions over runs, packaged once: what holds at the start and is kept by every step of the run's kind
holds at its end. A claim about runs is then a claim about one step. -/

namespace Sys2Proof.Machine

theorem reaches_keeps {P : State → Prop} (keep : ∀ s t, P s → Steps s t → P t) {s t : State} (run : Reaches s t)
    (start : P s) : P t := by
  induction run with
  | refl => exact start
  | tail _ last ih => exact keep _ _ ih last

theorem reachesWithoutReset_keeps {P : State → Prop} (keep : ∀ s t, P s → ¬ s.Resets → Steps s t → P t) {s t : State}
    (run : ReachesWithoutReset s t) (start : P s) : P t := by
  induction run with
  | refl => exact start
  | tail _ noReset last ih => exact keep _ _ ih noReset last

theorem reachesWithoutSetwid_keeps {P : State → Prop} (keep : ∀ s t, P s → ¬ s.ExecutesSetwid → Steps s t → P t)
    {s t : State} (run : ReachesWithoutSetwid s t) (start : P s) : P t := by
  induction run with
  | refl => exact start
  | tail _ noSetwid last ih => exact keep _ _ ih noSetwid last

end Sys2Proof.Machine
end

