-- ==== Sys2Proof/Tests/Slice0.lean ====
section
/-! SUPPORT. Tests and witnesses.
TESTS: expected values are those of spec/95_test_vectors.md (each test names its section) or words written out bit by bit
from spec/30_encoding.md R61 and R64; each runs one command.
WITNESSES: `witness_<statement>` gives, for each statement with hypotheses, a concrete state and operands that meet them
together, one conjunct for each clause. -/

namespace Sys2Proof.Machine

/-- A block under the default parameters, its identity captured (`0xAAAAAA`) or not, with these inputs presented. -/
def block (captured : Bool) (ins : List HostInput) : State :=
  { State.reset with
    widv := captured
    wid := if captured then 0xAAAAAA#24 else 0#24
    idr := if captured then 0x0000000000000000AAAAAA00#96 else 0#96
    inputs := ins }

/-- The same with one command presented. -/
def given (captured : Bool) (w : Word) (d : Data) : State := block captured [.command ⟨w, d⟩]

/-- The state one step later. -/
def after (s : State) : State :=
  match step s with
  | .next t => t
  | .fault _ => s
  | .refused _ => s

/-! ## WellFormed: each check refuses an ill-formed term -/

theorem test_config_zero_polynomial_refused : Config.accepted ⟨0x00#8, false, 0x00#8, 0x00#8⟩ = false := by decide
theorem test_config_default_accepted : Config.default.accepted = true := by decide
/-- R66 (a), the ends of the three unassigned ranges. -/
theorem test_word_unassigned_opcode_illegal :
    [0x06000000#32, 0x0F000000#32, 0x13000000#32, 0x1F000000#32, 0x21000000#32, 0xFF000000#32].all
      (fun w => !wordLegal w) = true := by decide
/-- R66 (b), words of section 2.8. -/
theorem test_word_reserved_bit_illegal :
    [0x00000001#32, 0x02000010#32, 0x04000100#32, 0x05000001#32, 0x12800000#32, 0x01000100#32, 0x03010000#32,
      0x11000100#32].all (fun w => !wordLegal w) = true := by decide
theorem test_asm_operand_too_wide_refused :
    [AsmLine.tlook 256, .crcb 256, .crc11 (2 ^ 96), .setwid (2 ^ 24), .pack 256 0, .pack 0 (2 ^ 96), .valid (2 ^ 24) 0,
      .valid 12 (2 ^ 96), .word (2 ^ 32) 0, .word 0 (2 ^ 96), .valid12 (2 ^ 96), .crcstr [0, 256]].all
      (fun l => !l.wf) = true := by decide

/-! ## Decoding: words written out from R61 and R64, `OPC` then `IMM` -/

theorem test_decode_nop : decode 0b00000000_0000000000000000_00000000#32 = .command .nop := by decide
theorem test_decode_tlook : decode 0b00000001_0000000000000000_10101010#32 = .command (.tlook 0xAA#8) := by decide
theorem test_decode_crcinit : decode 0b00000010_0000000000000000_00000000#32 = .command .crcinit := by decide
theorem test_decode_crcb : decode 0b00000011_0000000000000000_00110001#32 = .command (.crcb 0x31#8) := by decide
theorem test_decode_crcrd : decode 0b00000100_0000000000000000_00000000#32 = .command .crcrd := by decide
theorem test_decode_crc11 : decode 0b00000101_0000000000000000_00000000#32 = .command .crc11 := by decide
theorem test_decode_setwid :
    decode 0b00010000_100000000000000000000001#32 = .command (.setwid 0x800001#24) := by decide
theorem test_decode_pack : decode 0b00010001_0000000000000000_00000101#32 = .command (.pack 0x05#8) := by decide
theorem test_decode_rdid : decode 0b00010010_0000000000000000_00000000#32 = .command .rdid := by decide
theorem test_decode_valid : decode 0b00100000_000000000000000000001100#32 = .command (.valid 12#24) := by decide
theorem test_decode_table_word_pack : decodeTableWord 32 0x11000005 = some (.pack 0x05#8) := by decide

/-! ## One step each -/

/-- Section 2.1. -/
theorem test_tlook_31 : answerOf (step (given false 0x01000031#32 0#96)) = some ⟨.ok, 0x97#96⟩ := by decide
/-- Section 2.1: reserved bit 8 set. -/
theorem test_tlook_reserved : answerOf (step (given false 0x01000100#32 0#96)) = some ⟨.illegal, 0#96⟩ := by decide
/-- Section 2.2: from `S.ACC = 5A`, CRCINIT leaves `00`. -/
theorem test_crcinit_clears : (after { given false 0x02000000#32 0#96 with acc := 0x5A#8 }).acc = 0x00#8 := by decide
/-- Section 2.2: from `S.ACC = FF`, CRCB 0x00 gives `F3` in both. -/
theorem test_crcb_ff : (after { given false 0x03000000#32 0#96 with acc := 0xFF#8 }).acc = 0xF3#8 := by decide
/-- R86, by hand from R82's final XOR: with `CRC_XOROUT = 0x55` the answer is `F3 ^ 55 = A6`, the register `F3`. -/
theorem test_crcb_xorout :
    answerOf (step { given false 0x03000000#32 0#96 with
      cfg := { Config.default with crcXorOut := 0x55#8 }, acc := 0xFF#8 }) = some ⟨.ok, 0xA6#96⟩ := by decide
/-- Section 2.2: CRCRD of `S.ACC = F4`. -/
theorem test_crcrd : answerOf (step { given false 0x04000000#32 0#96 with acc := 0xF4#8 }) = some ⟨.ok, 0xF4#96⟩ := by
  decide
set_option maxRecDepth 8000 in
/-- Section 2.3: eleven `FF` bytes, byte 11 not read. -/
theorem test_crc11_ones : answerOf (step (given false 0x05000000#32 0xFFFFFFFFFFFFFFFFFFFFFF00#96)) = some ⟨.ok, 0x36#96⟩ := by
  decide
set_option maxRecDepth 8000 in
/-- Section 2.3: ASCII "123456789AB". -/
theorem test_crc11_ascii : answerOf (step (given false 0x05000000#32 0x313233343536373839414200#96)) = some ⟨.ok, 0xC7#96⟩ := by
  decide
set_option maxRecDepth 8000 in
/-- Section 2.1: the reflected form's check value (poly 0x31), from R81 and R82. -/
theorem test_reflected_check_value :
    crc8 ⟨0x31#8, true, 0x00#8, 0x00#8⟩ [0x31#8, 0x32#8, 0x33#8, 0x34#8, 0x35#8, 0x36#8, 0x37#8, 0x38#8, 0x39#8]
      = 0xA1#8 := by decide
/-- Section 2.4. -/
theorem test_setwid_reset : (after (given false 0x10FFFFFF#32 0#96)).idr = 0x0000000000000000FFFFFF00#96 := by decide
/-- Section 2.4: the same value again is LOCKED. -/
theorem test_setwid_locked : answerOf (step (given true 0x10AAAAAA#32 0#96)) = some ⟨.locked, 0#96⟩ := by decide
set_option maxRecDepth 8000 in
/-- Section 2.5, the bits of `DIN` above 51 set besides (R67). -/
theorem test_pack_one : (after (given true 0x11000001#32 0xFFFFFFFFFFF65FF4E04C0000#96)).idr
    = 0x165FF4E04C000001AAAAAAB9#96 := by decide
/-- Section 2.5. -/
theorem test_pack_nowid : answerOf (step (given false 0x11000000#32 0#96)) = some ⟨.nowid, 0#96⟩ := by decide
/-- Section 2.5. -/
theorem test_rdid_identity_only :
    answerOf (step (given true 0x12000000#32 0#96)) = some ⟨.ok, 0x0000000000000000AAAAAA00#96⟩ := by decide
/-- Section 2.6: length first. -/
theorem test_valid_length_8 :
    answerOf (step (given false 0x20000008#32 0x165FF4E04C000000AAAAAAAF#96)) = some ⟨.elen, 0x08#96⟩ := by decide
set_option maxRecDepth 8000 in
/-- Section 2.6: the flip of bit 40. -/
theorem test_valid_flip_40 :
    answerOf (step (given false 0x2000000C#32 0x165FF4E04C000100AAAAAAAF#96)) = some ⟨.ecrc, 0xCDAF#96⟩ := by decide
/-- Section 2.6: version 15. -/
theorem test_valid_version_15 : validate Config.default 12#24 0xF65FF4E04C000000AAAAAAAF#96 = ⟨.ever, 0x10F#96⟩ := by
  decide
/-- Section 2.7. -/
theorem test_nop : answerOf (step (given true 0x00000000#32 0#96)) = some ⟨.ok, 0#96⟩ := by decide
/-- Section 3.3, command 3. -/
theorem test_illegal_word : answerOf (step (given false 0x06000000#32 0#96)) = some ⟨.illegal, 0#96⟩ := by decide
/-- R170, R172: a command presented during reset is dropped without a response. -/
theorem test_reset_drops_command :
    stepMany 2 (block true [.resetLine true, .command ⟨0x10000001#32, 0#96⟩])
      = some { State.reset with inReset := true } := by decide

/-! ## The assembler (R69, R70; lines of sections 3.1 to 3.3) -/

theorem test_asm_setwid :
    assembleText ['S', 'E', 'T', 'W', 'I', 'D', ' ', '0', 'x', 'A', 'A', 'A', 'A', 'A', 'A']
      = some [⟨0x10AAAAAA#32, 0#96⟩] := by decide
set_option maxRecDepth 8000 in
theorem test_asm_pack_din :
    assembleText ['P', 'A', 'C', 'K', ' ', '0', 'x', '0', '1', ',', ' ', 'd', 'i', 'n', '=', '0', 'x', '6', '5', 'F', 'F',
      '4', 'E', '0', '4', 'C', '0', '0', '0', '0'] = some [⟨0x11000001#32, 0x65FF4E04C0000#96⟩] := by decide
theorem test_asm_valid12 :
    assembleText ['V', 'A', 'L', 'I', 'D', '1', '2', ' ', 'd', 'i', 'n', '=', '7'] = some [⟨0x2000000C#32, 7#96⟩] := by
  decide
theorem test_asm_crcstr :
    assembleText ['C', 'R', 'C', 'S', 'T', 'R', ' ', '0', 'x', '1', '6', ',', '0', 'x', '5', 'F']
      = some [⟨0x02000000#32, 0#96⟩, ⟨0x03000016#32, 0#96⟩, ⟨0x0300005F#32, 0#96⟩] := by decide
theorem test_asm_crcstr_empty : assembleText ['C', 'R', 'C', 'S', 'T', 'R'] = some [⟨0x02000000#32, 0#96⟩] := by decide
theorem test_asm_word :
    assembleText ['.', 'w', 'o', 'r', 'd', ' ', '0', 'x', '0', '6', '0', '0', '0', '0', '0', '0']
      = some [⟨0x06000000#32, 0#96⟩] := by decide
/-- R69: an operand that does not fit its field is refused. -/
theorem test_asm_refuses_wide : assembleText ['T', 'L', 'O', 'O', 'K', ' ', '2', '5', '6'] = none := by decide

/-! ## Witnesses: the hypotheses of each statement, met together by a concrete state and operands -/

/-- Two blocks used below: an identity captured and a PACK presented, then an RDID. -/
def packThenRead : State := block true [.command ⟨0x11000001#32, 5#96⟩, .command ⟨0x12000000#32, 0#96⟩]

/-- A block in reset, with a command presented. -/
def heldInReset : State := { given false 0x00000000#32 0#96 with inReset := true }

theorem steps_after {s t : State} (h : step s = .next t) : Steps s (after s) := by
  simp [Steps, after, h]

theorem witness_ZeroPolynomialIsRefused :
    (State.resetWith ⟨0x00#8, true, 0xFF#8, 0x00#8⟩).cfg.crcPoly = 0x00#8 := by decide

theorem witness_StepIsTotalOnAcceptedConfigurations :
    State.reset.cfg.crcPoly ≠ 0x00#8 ∧
    (given false 0xFF000000#32 7#96).cfg.crcPoly ≠ 0x00#8 ∧ (given false 0xFF000000#32 7#96).inReset = false ∧
      (given false 0xFF000000#32 7#96).inputs = .command ⟨0xFF000000#32, 7#96⟩ :: [] := by decide

theorem witness_TableIsConstant :
    (∃ c c' : Config, c ≠ c' ∧ c.crcPoly = c'.crcPoly ∧ c.crcReflect = c'.crcReflect) ∧
    Reaches packThenRead (after packThenRead) :=
  ⟨⟨Config.default, { Config.default with crcInit := 0xFF#8 }, by decide, rfl, rfl⟩, .tail (.refl _) (steps_after rfl)⟩

theorem witness_CommandsWriteOnlyTheirElements :
    (∃ t, exec .nop State.reset = .next t) ∧ (∃ t, exec (.setwid 1#24) State.reset = .next t) ∧
    (∃ t, exec (.pack 1#8) packThenRead = .next t) ∧ (∃ t, exec (.crcb 1#8) State.reset = .next t) :=
  ⟨⟨_, rfl⟩, ⟨_, rfl⟩, ⟨_, rfl⟩, ⟨_, rfl⟩⟩

theorem witness_ResponsesAreCopiesNeverRead : ∃ t, step packThenRead = .next t := ⟨_, rfl⟩

theorem witness_StepKeepsInvariant : ∃ s t : State, s.Inv ∧ s.widv = true ∧ step s = .next t :=
  ⟨packThenRead, _, ⟨⟨by decide, by decide⟩, nofun, .inr (.inl (by decide))⟩, rfl, rfl⟩

theorem witness_ReachableIdentityRelation :
    ∃ t, Reaches { State.resetWith Config.default with inputs := [.command ⟨0x10000001#32, 0#96⟩] } t ∧ t.widv = true :=
  ⟨_, .tail (.refl _) (steps_after rfl), rfl⟩

theorem witness_IdrStaysValidAfterPack :
    ∃ (u t v : State),
      packThenRead.inputs = .command ⟨0x11000001#32, 5#96⟩ :: [.command ⟨0x12000000#32, 0#96⟩] ∧
      packThenRead.inReset = false ∧ decode 0x11000001#32 = .command (.pack 1#8) ∧ packThenRead.widv = true ∧
      step packThenRead = .next u ∧ ReachesWithoutReset u t ∧ v.cfg = t.cfg ∧ v.din = t.idr := by
  refine ⟨after packThenRead, after (after packThenRead),
    { after (after packThenRead) with
      inputs := [.command ⟨0x2000000C#32, (after (after packThenRead)).idr⟩] },
    rfl, rfl, by decide, rfl, rfl, .tail (.refl _) (by simp [State.Resets]; decide) (steps_after rfl), rfl, rfl⟩

theorem witness_PackedWorkerFieldIsConstant :
    packThenRead.widv = true ∧ ReachesWithoutReset packThenRead (after packThenRead) :=
  ⟨rfl, .tail (.refl _) (by simp [State.Resets]; decide) (steps_after rfl)⟩

theorem witness_BlocksAreIndependent :
    (∃ bs', stepBlock [packThenRead, State.reset] 0 = .next bs') ∧ (1 ≠ 0) ∧
    [packThenRead, State.reset][0]? = some packThenRead ∧
    (∃ a b : State, a ≠ b ∧ a.cfg = b.cfg ∧ a.wid = b.wid ∧ a.widv = true ∧ b.widv = true ∧
      a.din.extractLsb' 0 52 = b.din.extractLsb' 0 52) :=
  ⟨⟨_, rfl⟩, by decide, rfl,
    ⟨packThenRead, { packThenRead with acc := 9#8 }, by decide, rfl, rfl, rfl, rfl, rfl⟩⟩

/-- The last byte, its top bit, and the last bit of each field. -/
theorem witness_IdentifierLayout : 11 < 12 ∧ 7 < 8 ∧ 95 < 96 ∧ 3 < 4 ∧ 51 < 52 ∧ 23 < 24 := by decide

theorem witness_SetwidImmediateLandsInBytes8To10 : State.reset.widv = false := rfl

theorem witness_InputsAreConsumedInOrder :
    packThenRead.inputs ≠ [] ∧ ∃ t, step packThenRead = .next t := ⟨by decide, ⟨_, rfl⟩⟩

theorem witness_OpcodeMap :
    (∃ r ∈ opcodeTable, 0x20FFFFFF#32 &&& r.maskBits = r.matchBits) ∧
    (∀ r ∈ opcodeTable, (0x21000000#32).extractLsb' 24 8 ≠ r.matchBits.extractLsb' 24 8) := by decide

theorem witness_IllegalWords :
    (given true 0x05000001#32 0#96).cfg.crcPoly ≠ 0x00#8 ∧ (given true 0x05000001#32 0#96).inReset = false ∧
    (given true 0x05000001#32 0#96).inputs = .command ⟨0x05000001#32, 0#96⟩ :: [] ∧
    decode 0x05000001#32 = .illegal .reservedBits := by decide

/-- One conjunct for each reading of `DIN`: CRC11 with another byte 11, PACK with other bits above 51, VALID of a length
other than 12 with any other `DIN`, and VALID 12 with the same. -/
theorem witness_UnusedDinBitsAreIgnored :
    (given true 0x05000000#32 0x100#96).inputs = .command ⟨0x05000000#32, 0x100#96⟩ :: [] ∧
    (0x100#96).extractLsb' 8 88 = (0x1FF#96).extractLsb' 8 88 ∧
    (0x7#96).extractLsb' 0 52 = (0x10000000000007#96).extractLsb' 0 52 ∧
    Instr.valid 11#24 ≠ .valid 12#24 ∧ (0x7#96 : Data) = 0x7#96 := by decide

theorem witness_DecodeCheckOrder :
    ((0x06000000#32 : Word) >>> 24).toNat ∉ [0x00, 0x01, 0x02, 0x03, 0x04, 0x05, 0x10, 0x11, 0x12, 0x20] ∧
    (((0x12000001#32 : Word) >>> 24).toNat ∈ [0x00, 0x02, 0x04, 0x05, 0x12] ∧ (0x12000001#32).extractLsb' 0 24 ≠ 0#24) ∧
    (((0x11000100#32 : Word) >>> 24).toNat ∈ [0x01, 0x03, 0x11] ∧ (0x11000100#32).extractLsb' 8 16 ≠ 0#16) ∧
    (given true 0x11000000#32 1#96).cfg.crcPoly ≠ 0x00#8 ∧ (given true 0x11000000#32 1#96).inReset = false ∧
      (given false 0x11000000#32 2#96).inReset = false := by decide

/-- The bounds of the decode clauses, each met by its largest operand. -/
theorem witness_AssemblerWords :
    255 < 256 ∧ decode (BitVec.ofNat 32 (0x01000000 + 255)) = .command (.tlook 255#8) ∧
    2 ^ 24 - 1 < 2 ^ 24 ∧ decode (BitVec.ofNat 32 (0x20000000 + (2 ^ 24 - 1))) = .command (.valid 0xFFFFFF#24) := by
  decide

theorem witness_PseudoInstructions :
    (∀ b ∈ [0x16, 0x5F, 255], b < 256) ∧ (∃ b ∈ [0x16, 256], 256 ≤ b) ∧
    ∃ (cs : List Command) (s : State), assemble (.crcstr [0x16, 0x5F]) = some cs ∧ s.cfg.crcPoly ≠ 0x00#8 ∧
      s.inReset = false ∧ s.inputs = cs.map .command ++ .command ⟨0x04000000#32, 0#96⟩ :: [] :=
  ⟨by decide, by decide,
    [⟨0x02000000#32, 0#96⟩, ⟨0x03000016#32, 0#96⟩, ⟨0x0300005F#32, 0#96⟩],
    block false [.command ⟨0x02000000#32, 0#96⟩, .command ⟨0x03000016#32, 0#96⟩, .command ⟨0x0300005F#32, 0#96⟩,
      .command ⟨0x04000000#32, 0#96⟩], by decide, by decide, rfl, rfl⟩

theorem witness_TableIsPolynomialRemainder : Config.default.crcReflect = false := rfl

theorem witness_TableReflectedForm :
    7 < 8 ∧ (Config.crcReflect ⟨0x31#8, true, 0x00#8, 0x00#8⟩) = true := by decide

theorem witness_CrcFunction : Config.default.crcInit = 0x00#8 ∧ Config.default.crcXorOut = 0x00#8 := by decide

theorem witness_DefaultTableListing : tableEntry Config.default 0x31#8 = tableEntry Config.default 0x31#8 := rfl

theorem witness_TlookReadsEntry : (0x8000#16 : BitVec 16) ≠ 0#16 := by decide

theorem witness_CrcinitStartsStream :
    (∃ t u, exec .crcinit packThenRead = .next t ∧ exec .crcinit t = .next u) ∧ (0x000001#24 : Word24) ≠ 0#24 ∧
    ∃ s : State, s.cfg = Config.default ∧ s.acc = 0x5A#8 :=
  ⟨⟨_, _, rfl, rfl⟩, by decide, ⟨{ State.reset with acc := 0x5A#8 }, rfl, rfl⟩⟩

theorem witness_CrcbFeedsByte :
    (0x0001#16 : BitVec 16) ≠ 0#16 ∧ ∃ s : State, s.cfg = Config.default ∧ s.acc = 0xFF#8 :=
  ⟨by decide, ⟨{ State.reset with acc := 0xFF#8 }, rfl, rfl⟩⟩

theorem witness_CrcrdReadsStream :
    (∃ t, exec .crcinit packThenRead = .next t) ∧ (0x000100#24 : Word24) ≠ 0#24 ∧
    ∃ s : State, s.cfg = Config.default ∧ s.inReset = false ∧
      s.inputs = (expand (.crcstr [0x31, 0x32, 0x33, 0x34, 0x35, 0x36, 0x37, 0x38, 0x39])).map .command ++
        .command ⟨0x04000000#32, 0#96⟩ :: [] :=
  ⟨⟨_, rfl⟩, by decide, ⟨block false _, rfl, rfl, rfl⟩⟩

theorem witness_Crc11ChecksumsBytes0To10 :
    (∃ s u : State, s.cfg = u.cfg ∧ s.din ≠ u.din ∧ s.din.extractLsb' 8 88 = u.din.extractLsb' 8 88) ∧
    (0x800000#24 : Word24) ≠ 0#24 ∧ (∃ s : State, s.cfg = Config.default ∧ s.din = 0#96) ∧
    (∃ s : State, s.cfg = Config.default ∧ s.din = 0x165FF4E04C000000AAAAAA00#96) :=
  ⟨⟨given true 0x05000000#32 0x100#96, given false 0x05000000#32 0x1FF#96, rfl, by decide, by decide⟩, by decide,
    ⟨State.reset, rfl, rfl⟩, ⟨given false 0x05000000#32 0x165FF4E04C000000AAAAAA00#96, rfl, rfl⟩⟩

theorem witness_SingleBitChangesCrc :
    Config.default.crcPoly ≠ 0x00#8 ∧ 7 < 8 ∧
      (List.replicate 10 (0#8 : Byte)).length + 1 + ([] : List Byte).length = 11 := by decide

/-- The words of a byte stream of bytes 0 to 10 of `v`, with the data operands given. -/
def streamInputs (v d0 d12 : Data) (ds : List Data) : List HostInput :=
  .command ⟨0x02000000#32, d0⟩ ::
    (List.zipWith (fun b d => .command ⟨0x03#8 ++ 0#16 ++ b, d⟩) (bytes0to10 v) ds) ++ [.command ⟨0x04000000#32, d12⟩]

theorem witness_StreamEqualsCrc11 :
    ∃ (s u : State) (v d0 d12 : Data) (ds : List Data), s.cfg.crcPoly ≠ 0x00#8 ∧ s.inReset = false ∧ u.cfg = s.cfg ∧
      u.din = v ∧ ds.length = 11 ∧
      s.inputs = .command ⟨0x02000000#32, d0⟩ ::
        (List.zipWith (fun b d => .command ⟨0x03#8 ++ 0#16 ++ b, d⟩)
          [v.extractLsb' 88 8, v.extractLsb' 80 8, v.extractLsb' 72 8, v.extractLsb' 64 8, v.extractLsb' 56 8,
           v.extractLsb' 48 8, v.extractLsb' 40 8, v.extractLsb' 32 8, v.extractLsb' 24 8, v.extractLsb' 16 8,
           v.extractLsb' 8 8] ds) ++
        .command ⟨0x04000000#32, d12⟩ :: [] :=
  ⟨block false (streamInputs 0x313233343536373839414200#96 5#96 6#96 ((List.range 11).map (BitVec.ofNat 96))),
    given false 0x05000000#32 0x313233343536373839414200#96, 0x313233343536373839414200#96, 5#96, 6#96,
    (List.range 11).map (BitVec.ofNat 96), by decide, rfl, rfl, rfl, rfl, rfl⟩

theorem witness_SetwidCapturesOnce : State.reset.widv = false ∧ packThenRead.widv = true := by decide

theorem witness_PackAssemblesIdentifier :
    packThenRead.widv = true ∧ State.reset.widv = false ∧ (0xFFFF#16 : BitVec 16) ≠ 0#16 ∧
    (∃ t, exec (.pack 1#8) packThenRead = .next t ∧ ∃ u : State, u.cfg = t.cfg ∧ u.wid = t.wid ∧ u.widv = t.widv ∧
      u.din.extractLsb' 0 52 = packThenRead.din.extractLsb' 0 52) ∧
    (∃ s : State, s.cfg = Config.default ∧ s.widv = true ∧ s.wid = 0xAAAAAA#24 ∧ s.din = 0x65FF4E04C0000#96) :=
  ⟨rfl, rfl, by decide, ⟨_, rfl, packThenRead, rfl, rfl, rfl, rfl⟩,
    ⟨given true 0x11000000#32 0x65FF4E04C0000#96, rfl, rfl, rfl, rfl⟩⟩

theorem witness_RdidReadsIdentifier :
    (∃ t, exec (.setwid 7#24) (State.resetWith Config.default) = .next t) ∧ State.reset.din = 0#96 ∧
    (given true 0x2000000C#32 0xAAAAAA00#96).din = 0#64 ++ 0xAAAAAA#24 ++ 0#8 ∧ (1#24 : Word24) ≠ 0#24 :=
  ⟨⟨_, rfl⟩, rfl, by decide, by decide⟩

theorem witness_PackedFields : packThenRead.widv = true := rfl

theorem witness_PackedIdentifierPassesValid :
    ∃ (u : State) (id : Data), packThenRead.widv = true ∧
      answerOf (exec (.pack 1#8) packThenRead) = some ⟨.ok, id⟩ ∧ u.cfg = packThenRead.cfg ∧ u.din = id :=
  ⟨given false 0x2000000C#32 _, _, rfl, rfl, rfl, rfl⟩

/-- The order statement at two time-words that differ, and at the boundary where they are equal. -/
theorem witness_PackedOrderIsTimeWordOrder :
    packThenRead.widv = true ∧ ReachesWithoutReset packThenRead (after packThenRead) ∧
    ReachesWithoutReset packThenRead packThenRead ∧
    (0x1#4 ++ packThenRead.din.extractLsb' 0 52 ++ 1#8 : TimeWord).toNat
      < (0x1#4 ++ packThenRead.din.extractLsb' 0 52 ++ 2#8 : TimeWord).toNat :=
  ⟨rfl, .tail (.refl _) (by simp [State.Resets]; decide) (steps_after rfl), .refl _, by decide⟩

set_option maxRecDepth 8000 in
theorem witness_ValidChecksCandidate :
    (11#24 : Word24) ≠ 12#24 ∧ (given false 0x2000000C#32 0#96).din.extractLsb' 92 4 ≠ 0x1#4 ∧
    (given false 0x2000000C#32 0x165FF4E04C000000AAAAAAAF#96).din.extractLsb' 92 4 = 0x1#4 ∧
    checksum Config.default (0x165FF4E04C000000AAAAAAAF#96 : Data) = 0xAF#8 ∧
    (given false 0x2000000C#32 0x165FF4E04C000000AAAAAA00#96).cfg = Config.default ∧
    (given false 0x2000000C#32 0x165FF4E04C000000AAAAAA00#96).din = 0x165FF4E04C000000AAAAAA00#96 := by decide

/-- At the ends of the range: shorter and longer by one than 12, and at the saturation. -/
theorem witness_CandidateLengthSaturates :
    11 ≠ 12 ∧ 13 ≠ 12 ∧ 0xFFFFFF ≠ 12 ∧ presentedLength (2 ^ 24 + 12) = 0xFFFFFF#24 := by decide

theorem witness_ValidationIsPure :
    ∃ (s : State) (c : Command) (rest : List HostInput), s.cfg.crcPoly ≠ 0x00#8 ∧ s.inReset = false ∧
      s.inputs = .command c :: rest ∧ decode c.cmd = .command (.valid 12#24) ∧
      (∃ t, stepMany 2 { s with inputs := rest } = some t) ∧ ∃ u : State, s.cfg = u.cfg ∧ s.din = u.din :=
  ⟨block true [.command ⟨0x2000000C#32, 0#96⟩, .command ⟨0x11000000#32, 0#96⟩, .resetLine true],
    ⟨0x2000000C#32, 0#96⟩, _, by decide, rfl, rfl, by decide, ⟨_, rfl⟩, ⟨_, rfl, rfl⟩⟩

set_option maxRecDepth 8000 in
/-- The three clauses at the ends of their ranges: bits 95 and 92, 91 and 8, 7 and 0. -/
theorem witness_SingleBitCorruptionIsCaught :
    ∃ s : State, s.cfg.crcPoly ≠ 0x00#8 ∧ answerOf (exec (.valid 12#24) s) = some ⟨.ok, 0#96⟩ ∧
      ∀ j ∈ [95, 92, 91, 8, 7, 0], j < 96 ∧
        (given false 0x2000000C#32 (s.din ^^^ (1#96 <<< j))).din = s.din ^^^ (1#96 <<< j) :=
  ⟨given true 0x2000000C#32 0x165FF4E04C000000AAAAAAAF#96, by decide, by decide, fun j hj => ⟨by
    simp only [List.mem_cons, List.not_mem_nil, or_false] at hj; omega, rfl⟩⟩

theorem witness_WrongVersionIsRejected :
    (0xF#4 : BitVec 4) ≠ 0x1#4 ∧ ∃ s : State, s.din = 0xF#4 ++ (0#84 : BitVec 84) ++ 0x12#8 :=
  ⟨by decide, ⟨given false 0x2000000C#32 _, rfl⟩⟩

theorem witness_NopOnlyAnswers : (1#24 : Word24) ≠ 0#24 := by decide

theorem witness_IllegalCommandIsAnswered :
    (given true 0x06000000#32 9#96).cfg.crcPoly ≠ 0x00#8 ∧ (given true 0x06000000#32 9#96).inReset = false ∧
    (given true 0x06000000#32 9#96).inputs = .command ⟨0x06000000#32, 9#96⟩ :: [] ∧
    decode 0x06000000#32 = .illegal .unassignedOpcode := by decide

theorem witness_StepExecutesDecodedCommand :
    packThenRead.cfg.crcPoly ≠ 0x00#8 ∧ packThenRead.inReset = false ∧
    packThenRead.inputs = .command ⟨0x11000001#32, 5#96⟩ :: [.command ⟨0x12000000#32, 0#96⟩] ∧
    decode 0x11000001#32 = .command (.pack 1#8) := by decide

/-- A step that answers an error, and one that answers OK. -/
theorem witness_StatusCodes :
    (∃ t r, step (given true 0x10000001#32 0#96) = .next t ∧
      t.responses = r :: (given true 0x10000001#32 0#96).responses ∧ r.st = .locked) ∧
    (∃ t r, step packThenRead = .next t ∧ t.responses = r :: packThenRead.responses ∧ r.st = .ok) :=
  ⟨⟨_, _, rfl, rfl, rfl⟩, ⟨_, _, rfl, rfl, rfl⟩⟩

theorem witness_ErrorsChangeNothing :
    ∃ t r, step (given true 0x10000001#32 0#96) = .next t ∧
      t.responses = r :: (given true 0x10000001#32 0#96).responses ∧ r.st ≠ .ok :=
  ⟨_, _, rfl, rfl, by decide⟩

theorem witness_CapturedPackAlwaysSucceeds :
    packThenRead.widv = true ∧ ReachesWithoutReset packThenRead (after packThenRead) :=
  ⟨rfl, .tail (.refl _) (by simp [State.Resets]; decide) (steps_after rfl)⟩

theorem witness_OwnStatusesOnly :
    (given false 0x01000100#32 0#96).cfg.crcPoly ≠ 0x00#8 ∧ (given false 0x01000100#32 0#96).inReset = false ∧
    (given false 0x01000100#32 0#96).inputs = .command ⟨0x01000100#32, 0#96⟩ :: [] ∧
    decode 0x01000100#32 = .illegal .reservedBits := by decide

theorem witness_ResetPutsState :
    (block true [.resetLine true]).cfg.crcPoly ≠ 0x00#8 ∧
    (block true [.resetLine true]).inputs = .resetLine true :: [] ∧
    (block true [.resetLine true, .resetLine false]).inputs = .resetLine true :: .resetLine false :: [] := by decide

theorem witness_NoCommandDuringReset :
    heldInReset.cfg.crcPoly ≠ 0x00#8 ∧ heldInReset.inReset = true ∧
    heldInReset.inputs = [(⟨0x00000000#32, 0#96⟩ : Command)].map .command ++ [] := by decide

theorem witness_OnlyResetClearsIdentity :
    (packThenRead.widv = true ∧ ReachesWithoutReset packThenRead (after packThenRead)) ∧
    ((block true [.resetLine true]).Resets ∧ ∃ t, step (block true [.resetLine true]) = .next t) :=
  ⟨⟨rfl, .tail (.refl _) (by simp [State.Resets]; decide) (steps_after rfl)⟩, ⟨rfl, ⟨_, rfl⟩⟩⟩

/-- A block right after reset with a CRCB and then a PACK presented, and the same with the CRCB replaced by SETWID 5. -/
def feedThenPack : State :=
  { State.resetWith Config.default with inputs := [.command ⟨0x03000001#32, 0#96⟩, .command ⟨0x11000000#32, 0#96⟩] }

/-- A run without SETWID that executes a command, a run after SETWID that executes a PACK, and commands other than
PACK. -/
theorem witness_InitialisationOrder :
    (feedThenPack.widv = false ∧ ReachesWithoutSetwid feedThenPack (after feedThenPack)) ∧
    (∃ t, State.reset.widv = false ∧ exec (.setwid 5#24) { feedThenPack with acc := 0#8 } = .next t ∧
      ReachesWithoutReset t (after t)) ∧
    (∀ c, Instr.setwid 5#24 ≠ .pack c) ∧ (∀ len, Instr.setwid 5#24 ≠ .valid len) :=
  ⟨⟨rfl, .tail (.refl _) (by
      rintro ⟨-, c, rest, w, hi, hd⟩
      cases hi
      exact absurd hd (by simp [show decode 0x03000001#32 = .command (.crcb 0x01#8) by decide])) (steps_after rfl)⟩,
    ⟨_, rfl, rfl, .tail (.refl _) (by simp [State.Resets]; decide) (steps_after rfl)⟩, nofun, nofun⟩

theorem witness_NextCommandSeesEarlierWrites :
    (∃ s : State, s.cfg.crcPoly ≠ 0x00#8 ∧ s.inReset = false ∧ s.widv = false ∧
      s.inputs = .command ⟨0x10#8 ++ 7#24, 0#96⟩ :: .command ⟨0x11#8 ++ 0#16 ++ 1#8, 0#96⟩ :: []) ∧
    (∃ s : State, s.cfg.crcPoly ≠ 0x00#8 ∧ s.inReset = false ∧
      s.inputs = .command ⟨0x03#8 ++ 0#16 ++ 1#8, 0#96⟩ :: .command ⟨0x04000000#32, 0#96⟩ :: []) :=
  ⟨⟨block false [.command ⟨0x10#8 ++ 7#24, 0#96⟩, .command ⟨0x11#8 ++ 0#16 ++ 1#8, 0#96⟩], by decide, rfl, rfl, rfl⟩,
    ⟨block false [.command ⟨0x03#8 ++ 0#16 ++ 1#8, 0#96⟩, .command ⟨0x04000000#32, 0#96⟩], by decide, rfl, rfl⟩⟩

theorem witness_IdleBlockHoldsState : State.reset.cfg.crcPoly ≠ 0x00#8 ∧ State.reset.inputs = [] := by decide

end Sys2Proof.Machine
end

section
/-! PROOFS. The statements of spec/00_scope.md: the refused configuration (R8), the total step (R11), and the step as
the execution of the decoded word (R10, R68). -/

namespace Sys2Proof.Machine

/-! ### A zero polynomial -/

theorem tableRoundMsb_zero (c : Byte) : tableRoundMsb 0x00#8 c = c <<< 1 := by
  simp [tableRoundMsb]

theorem tableRoundLsb_zero (c : Byte) : tableRoundLsb 0x00#8 c = c >>> 1 := by
  have hrev : rev8 0x00#8 = 0x00#8 := by decide
  simp [tableRoundLsb, hrev]

theorem repeatRounds_msb_zero (k : Nat) : ∀ c : Byte, repeatRounds (tableRoundMsb 0x00#8) k c = c <<< k := by
  induction k with
  | zero => intro c; simp [repeatRounds]
  | succ k ih => intro c; rw [repeatRounds, ih, tableRoundMsb_zero, ← BitVec.shiftLeft_add, Nat.add_comm]

theorem repeatRounds_lsb_zero (k : Nat) : ∀ c : Byte, repeatRounds (tableRoundLsb 0x00#8) k c = c >>> k := by
  induction k with
  | zero => intro c; simp [repeatRounds]
  | succ k ih => intro c; rw [repeatRounds, ih, tableRoundLsb_zero, ← BitVec.shiftRight_add, Nat.add_comm]

/-- With no polynomial to XOR in, the eight rounds only shift the index out (R8). -/
theorem tableEntry_of_poly_zero {cfg : Config} (h : cfg.crcPoly = 0x00#8) (i : Byte) : tableEntry cfg i = 0x00#8 := by
  unfold tableEntry
  rw [h, repeatRounds_lsb_zero, repeatRounds_msb_zero]
  split
  · exact BitVec.ushiftRight_eq_zero (Nat.le_refl 8)
  · exact BitVec.shiftLeft_eq_zero (Nat.le_refl 8)

/-- A zero table forgets the register at each byte, so the byte fed leaves no trace. -/
theorem crc8_change_byte_of_poly_zero {cfg : Config} (h : cfg.crcPoly = 0x00#8) (pre post : List Byte) (b b' : Byte) :
    crc8 cfg (pre ++ b :: post) = crc8 cfg (pre ++ b' :: post) := by
  simp only [crc8, crcRegister_append, crcRegister_cons, tableEntry_of_poly_zero h]

theorem step_of_poly_zero {s : State} (h : s.cfg.crcPoly = 0x00#8) : step s = .refused .configRefused := by
  simp [step, Config.accepted, h]

/-- Settles O1: each round of the table is a bare shift, and eight of them clear a byte. -/
theorem zeroPolynomialIsRefused : Obligations.ZeroPolynomialIsRefused :=
  ⟨fun _ h => step_of_poly_zero h, fun _ i h => tableEntry_of_poly_zero h i,
    fun _ pre post b b' h => crc8_change_byte_of_poly_zero h pre post b b'⟩

/-! ### The step is total -/

theorem exec_next (i : Instr) (s : State) : ∃ t, exec i s = .next t := by
  cases i with
  | setwid w =>
    cases hw : s.widv with
    | true => exact ⟨_, exec_setwid_locked hw w⟩
    | false => exact ⟨_, exec_setwid_captures hw w⟩
  | pack c =>
    cases hw : s.widv with
    | true => exact ⟨_, exec_pack_packs hw c⟩
    | false => exact ⟨_, exec_pack_nowid hw c⟩
  | nop | tlook | crcinit | crcb | crcrd | crc11 | rdid | valid => exact ⟨_, rfl⟩

/-- Every command ends in a next state with one response more (R10, R26). -/
theorem exec_responds (i : Instr) (s : State) : ∃ t r, exec i s = .next t ∧ t.responses = r :: s.responses := by
  obtain ⟨t, ht⟩ := exec_next i s
  refine ⟨t, ?_⟩
  obtain ⟨st, d, rfl⟩ | ⟨a, d, rfl, -⟩ | ⟨w, -, -, rfl⟩ | ⟨c, id, -, -, -, rfl⟩ := exec_cases ht <;>
    exact ⟨_, ht, rfl⟩

theorem runWord_of_command {w : Word} {i : Instr} (h : decode w = .command i) (s : State) :
    runWord w s = exec i s := by
  simp [runWord, h]

theorem runWord_of_illegal {w : Word} {why : Illegal} (h : decode w = .illegal why) (s : State) :
    runWord w s = .next (s.respond .illegal 0#96) := by
  simp [runWord, h, execIllegal]

/-- Every word, an illegal one too, ends in a next state with one response more (R11, R141). -/
theorem runWord_responds (w : Word) (s : State) : ∃ t r, runWord w s = .next t ∧ t.responses = r :: s.responses := by
  cases hd : decode w with
  | command i => rw [runWord_of_command hd]; exact exec_responds i s
  | illegal why => exact ⟨_, _, runWord_of_illegal hd s, rfl⟩

theorem runPort_next (s : State) : ∃ t, runPort s = .next t := by
  match hi : s.inputs with
  | [] => exact ⟨_, runPort_idle hi⟩
  | .resetLine lvl :: rest => exact ⟨_, runPort_reset hi⟩
  | .command c :: rest =>
    cases hr : s.inReset with
    | true => exact ⟨_, runPort_held hi hr⟩
    | false =>
      obtain ⟨t, -, ht, -⟩ := runWord_responds c.cmd s
      exact ⟨t, (runPort_command hi hr).trans ht⟩

theorem step_next {s : State} (h : s.cfg.crcPoly ≠ 0x00#8) : ∃ t, step s = .next t := by
  rw [step_eq_runPort h]
  exact runPort_next s

theorem step_refused_iff (s : State) : (∃ r, step s = .refused r) ↔ s.cfg.crcPoly = 0x00#8 := by
  refine ⟨fun ⟨r, hr⟩ => ?_, fun h => ⟨_, step_of_poly_zero h⟩⟩
  by_contra h
  obtain ⟨t, ht⟩ := step_next h
  cases ht.symm.trans hr

/-- A step with a command at the port, outside reset, runs its word. -/
theorem step_command {s : State} {c : Command} {rest : List HostInput} (hp : s.cfg.crcPoly ≠ 0x00#8)
    (hr : s.inReset = false) (hi : s.inputs = .command c :: rest) : step s = runWord c.cmd s :=
  (step_eq_runPort hp).trans (runPort_command hi hr)

/-- Settles O2: the port's every case, and every word, ends in a next state; `Fault` has no constructor. -/
theorem stepIsTotalOnAcceptedConfigurations : Obligations.StepIsTotalOnAcceptedConfigurations := by
  refine ⟨fun _ => step_next, step_refused_iff, fun _ => nofun, fun s w d rest hp hr hi => ?_⟩
  obtain ⟨t, r, ht, hresp⟩ := runWord_responds w s
  refine ⟨r, ?_⟩
  simp [step_command hp hr hi, ht, answerOf, hresp]

/-! ### The step executes the decoded command -/

theorem step_of_decode {s : State} {c : Command} {rest : List HostInput} {i : Instr} (hp : s.cfg.crcPoly ≠ 0x00#8)
    (hr : s.inReset = false) (hi : s.inputs = .command c :: rest) (hd : decode c.cmd = .command i) :
    step s = exec i s :=
  (step_command hp hr hi).trans (runWord_of_command hd s)

@[simp] theorem tableWord_toNat (w : Word) : tableWord 32 w.toNat = w := by
  simp [tableWord, Nat.mod_eq_of_lt w.isLt]

theorem decodeTableWord_of_decode {w : Word} {i : Instr} (h : decode w = .command i) :
    decodeTableWord 32 w.toNat = some i := by
  simp [decodeTableWord, h]

theorem withFetchWord_toNat (s : State) (w : Word) : s.withFetchWord 32 w.toNat = s.presentNext ⟨w, 0#96⟩ := by
  simp [State.withFetchWord]

/-- Settles O50: the step runs the word at the port, and `withFetchWord` presents that word outside reset. -/
theorem stepExecutesDecodedCommand : Obligations.StepExecutesDecodedCommand := by
  refine ⟨fun s c rest i hp hr hi hd => step_of_decode hp hr hi hd, fun s w i hp hd => ?_⟩
  refine ⟨decodeTableWord_of_decode hd, ?_⟩
  rw [withFetchWord_toNat]
  exact step_of_decode (by simpa using hp) (State.presentNext_inReset ..) (State.presentNext_inputs ..) hd

end Sys2Proof.Machine
end

section
/-! PROOFS. The statements of spec/10_state.md: who writes which element (R21 to R26), the invariants of the identity and
the identifier register (R28 to R30), and blocks beside each other (R31). -/

namespace Sys2Proof.Machine

/-! ### What a step does to the worker identity and the identifier register -/

/-- All a step can do to `S.WID`, `S.WIDV` and `S.IDR` (R23 to R25, R170). -/
inductive IdentityEffect (s t : State) : Prop where
  | kept (wid : t.wid = s.wid) (widv : t.widv = s.widv) (idr : t.idr = s.idr)
  /-- Reset was asserted. -/
  | cleared (resets : s.Resets) (wid : t.wid = 0#24) (widv : t.widv = false) (idr : t.idr = 0#96)
  /-- An accepted SETWID. -/
  | captured (fresh : s.widv = false) (widv : t.widv = true) (idr : t.idr = withWorker s.idr t.wid)
  /-- An accepted PACK. -/
  | packed (accepted : s.widv = true) (ts : BitVec 52) (c : Byte) (wid : t.wid = s.wid) (widv : t.widv = true)
      (idr : t.idr = packIdentifier s.cfg (packTimeWord ts c) s.wid)

theorem exec_identityEffect {i : Instr} {s t : State} (h : exec i s = .next t) : IdentityEffect s t := by
  obtain ⟨st, d, rfl⟩ | ⟨a, d, rfl, -⟩ | ⟨w, -, hw, rfl⟩ | ⟨c, id, -, hw, rfl, rfl⟩ := exec_cases h
  · exact .kept rfl rfl rfl
  · exact .kept rfl rfl rfl
  · exact .captured hw rfl rfl
  · exact .packed hw _ c rfl hw rfl

theorem step_identityEffect {s t : State} (h : step s = .next t) : IdentityEffect s t := by
  obtain ⟨-, ⟨-, rfl⟩ | ⟨lvl, rest, hi, rfl⟩ | ⟨c, rest, -, -, rfl⟩ | ⟨c, rest, why, -, -, -, rfl⟩ |
    ⟨c, rest, i, -, -, -, he⟩⟩ := step_cases h
  · exact .kept rfl rfl rfl
  · cases lvl with
    | true => exact .cleared (by simp [State.Resets, hi]) rfl rfl rfl
    | false => exact .kept rfl rfl rfl
  · exact .kept rfl rfl rfl
  · exact .kept rfl rfl rfl
  · exact exec_identityEffect he

/-! ### The frame of the commands -/

theorem withWorker_timeWord (v : Data) (w : Word24) : timeWordOf (withWorker v w) = timeWordOf v :=
  timeWordOf_packed _ w _

theorem withWorker_checksum (v : Data) (w : Word24) : checksumOf (withWorker v w) = checksumOf v :=
  checksumOf_packed _ _

/-- What every command leaves: the parameters and the reset line, itself consumed, one response more (R10, R26). -/
theorem exec_frame {i : Instr} {s t : State} (h : exec i s = .next t) :
    t.cfg = s.cfg ∧ t.inReset = s.inReset ∧ t.inputs = s.inputs.tail ∧ ∃ r, t.responses = r :: s.responses := by
  obtain ⟨st, d, rfl⟩ | ⟨a, d, rfl, -⟩ | ⟨w, -, -, rfl⟩ | ⟨c, id, -, -, -, rfl⟩ := exec_cases h <;>
    exact ⟨rfl, rfl, rfl, _, rfl⟩

theorem exec_keeps_acc {i : Instr} {s t : State} (h : exec i s = .next t) (hinit : i ≠ .crcinit)
    (hcrcb : ∀ b, i ≠ .crcb b) : t.acc = s.acc := by
  obtain ⟨st, d, rfl⟩ | ⟨a, d, -, rfl | ⟨b, rfl⟩⟩ | ⟨w, -, -, rfl⟩ | ⟨c, id, -, -, -, rfl⟩ := exec_cases h
  · rfl
  · exact absurd rfl hinit
  · exact absurd rfl (hcrcb b)
  · rfl
  · rfl

theorem exec_keeps_wid {i : Instr} {s t : State} (h : exec i s = .next t) (hsetwid : ∀ w, i ≠ .setwid w) :
    t.wid = s.wid ∧ t.widv = s.widv := by
  obtain ⟨st, d, rfl⟩ | ⟨a, d, rfl, -⟩ | ⟨w, rfl, -, -⟩ | ⟨c, id, -, -, -, rfl⟩ := exec_cases h
  · exact ⟨rfl, rfl⟩
  · exact ⟨rfl, rfl⟩
  · exact absurd rfl (hsetwid w)
  · exact ⟨rfl, rfl⟩

theorem exec_keeps_idr {i : Instr} {s t : State} (h : exec i s = .next t) (hsetwid : ∀ w, i ≠ .setwid w)
    (hpack : ∀ c, i ≠ .pack c) : t.idr = s.idr := by
  obtain ⟨st, d, rfl⟩ | ⟨a, d, rfl, -⟩ | ⟨w, rfl, -, -⟩ | ⟨c, id, rfl, -, -, -⟩ := exec_cases h
  · rfl
  · rfl
  · exact absurd rfl (hsetwid w)
  · exact absurd rfl (hpack c)

/-- SETWID, accepted or LOCKED, keeps the bits of `S.IDR` outside the worker field (R25, R46). -/
theorem exec_setwid_idr {w : Word24} {s t : State} (h : exec (.setwid w) s = .next t) :
    timeWordOf t.idr = timeWordOf s.idr ∧ checksumOf t.idr = checksumOf s.idr := by
  cases hw : s.widv with
  | true =>
    cases (exec_setwid_locked hw w).symm.trans h
    exact ⟨rfl, rfl⟩
  | false =>
    cases (exec_setwid_captures hw w).symm.trans h
    exact ⟨withWorker_timeWord s.idr w, withWorker_checksum s.idr w⟩

/-- Settles O4: one frame lemma for each element, each from the cases of an executed command. -/
theorem commandsWriteOnlyTheirElements : Obligations.CommandsWriteOnlyTheirElements := fun _ _ _ h =>
  ⟨exec_keeps_acc h, exec_keeps_wid h, exec_keeps_idr h, fun _ hi => exec_setwid_idr (hi ▸ h), exec_frame h⟩

/-! ### The table and the parameters -/

theorem step_cfg {s t : State} (h : step s = .next t) : t.cfg = s.cfg := by
  obtain ⟨-, ⟨-, rfl⟩ | ⟨lvl, rest, -, rfl⟩ | ⟨c, rest, -, -, rfl⟩ | ⟨c, rest, why, -, -, -, rfl⟩ |
    ⟨c, rest, i, -, -, -, he⟩⟩ := step_cases h
  · rfl
  · cases lvl <;> rfl
  · rfl
  · rfl
  · obtain ⟨hcfg, -⟩ := exec_frame he
    exact hcfg

theorem reaches_cfg {s t : State} (run : Reaches s t) : t.cfg = s.cfg :=
  reaches_keeps (P := fun u => u.cfg = s.cfg) (fun _ _ hu last => (step_cfg last).trans hu) run rfl

theorem exec_tlook (idx : Byte) (s : State) :
    exec (.tlook idx) s = .next (s.answered ⟨.ok, 0#88 ++ tableEntry s.cfg idx⟩) := by
  rw [← zext96_byte]
  rfl

/-- Settles O3: the table is computed from the parameters, and no step of a run writes those. -/
theorem tableIsConstant : Obligations.TableIsConstant := by
  refine ⟨fun _ _ i hp hr => tableEntry_congr hp hr i, fun s t run => ?_, fun cfg idx => ?_⟩
  · have hcfg := reaches_cfg run
    exact ⟨hcfg, fun i => by simp only [State.tbl, hcfg]⟩
  · exact congrArg answerOf (exec_tlook idx _)

/-! ### Responses are returned, never read -/

/-- The block with other responses returned before. -/
def State.withResponses (s : State) (rs : List Response) : State := { s with responses := rs }

/-- A command returns one response, and the same one whatever was returned before. -/
theorem exec_ignores_responses (i : Instr) (s : State) : ∃ t r, exec i s = .next t ∧
    t.responses = r :: s.responses ∧ ∀ rs, exec i (s.withResponses rs) = .next (t.withResponses (r :: rs)) := by
  cases i with
  | setwid w =>
    cases hw : s.widv with
    | true => exact ⟨_, _, exec_setwid_locked hw w, rfl,
        fun rs => exec_setwid_locked (s := s.withResponses rs) hw w⟩
    | false => exact ⟨_, _, exec_setwid_captures hw w, rfl,
        fun rs => exec_setwid_captures (s := s.withResponses rs) hw w⟩
  | pack c =>
    cases hw : s.widv with
    | true => exact ⟨_, _, exec_pack_packs hw c, rfl,
        fun rs => exec_pack_packs (s := s.withResponses rs) hw c⟩
    | false => exact ⟨_, _, exec_pack_nowid hw c, rfl,
        fun rs => exec_pack_nowid (s := s.withResponses rs) hw c⟩
  | nop | tlook | crcinit | crcb | crcrd | crc11 | rdid | valid => exact ⟨_, _, rfl, rfl, fun _ => rfl⟩

theorem runWord_ignores_responses (w : Word) (s : State) : ∃ t r, runWord w s = .next t ∧
    t.responses = r :: s.responses ∧
    ∀ rs, runWord w (s.withResponses rs) = .next (t.withResponses (r :: rs)) := by
  cases hd : decode w with
  | command i => simpa only [runWord_of_command hd] using exec_ignores_responses i s
  | illegal why => exact ⟨_, _, runWord_of_illegal hd s, rfl, fun _ => runWord_of_illegal hd _⟩

/-- What the port returns, at most one response, does not depend on the responses before. -/
theorem runPort_ignores_responses (s : State) : ∃ t new, runPort s = .next t ∧ new.length ≤ 1 ∧
    t.responses = new ++ s.responses ∧
    ∀ rs, runPort (s.withResponses rs) = .next (t.withResponses (new ++ rs)) := by
  match hi : s.inputs with
  | [] => exact ⟨s, [], runPort_idle hi, Nat.zero_le 1, rfl,
      fun rs => runPort_idle (s := s.withResponses rs) hi⟩
  | .resetLine true :: rest => exact ⟨_, [], runPort_reset hi, Nat.zero_le 1, rfl,
      fun rs => runPort_reset (s := s.withResponses rs) hi⟩
  | .resetLine false :: rest => exact ⟨_, [], runPort_reset hi, Nat.zero_le 1, rfl,
      fun rs => runPort_reset (s := s.withResponses rs) hi⟩
  | .command c :: rest =>
    cases hr : s.inReset with
    | true => exact ⟨_, [], runPort_held hi hr, Nat.zero_le 1, rfl,
      fun rs => runPort_held (s := s.withResponses rs) hi hr⟩
    | false =>
      obtain ⟨t, r, ht, hresp, hrs⟩ := runWord_ignores_responses c.cmd s
      exact ⟨t, [r], (runPort_command hi hr).trans ht, Nat.le_refl 1, hresp,
        fun rs => (runPort_command (s := s.withResponses rs) hi hr).trans (hrs rs)⟩

theorem poly_ne_zero_of_step {s t : State} (h : step s = .next t) : s.cfg.crcPoly ≠ 0x00#8 :=
  fun hp => nomatch (step_of_poly_zero hp).symm.trans h

/-- Settles O5: a step is the port's, whose response is the same whatever was returned before. -/
theorem responsesAreCopiesNeverRead : Obligations.ResponsesAreCopiesNeverRead := by
  intro s t h
  have hp := poly_ne_zero_of_step h
  obtain ⟨u, new, hu, hlen, hresp, hrs⟩ := runPort_ignores_responses s
  obtain rfl : u = t := Host.Outcome.next.inj (hu.symm.trans ((step_eq_runPort hp).symm.trans h))
  exact ⟨new, hlen, hresp, fun rs => (step_eq_runPort (s := s.withResponses rs) hp).trans (hrs rs)⟩

/-! ### The invariant -/

theorem packIdentifier_wellFormed (cfg : Config) (ts : BitVec 52) (c : Byte) (wid : Word24) :
    WellFormedId cfg (packIdentifier cfg (packTimeWord ts c) wid) :=
  ⟨packIdentifier_version cfg ts c wid, packIdentifier_checksum cfg _ wid⟩

theorem IdentityEffect.keeps_identityInv {s t : State} (e : IdentityEffect s t) (h : s.IdentityInv) :
    t.IdentityInv := by
  cases e with
  | kept wid widv idr => exact ⟨by rw [wid, widv, idr]; exact h.captured, by rw [wid, widv, idr]; exact h.uncaptured⟩
  | cleared _ wid widv idr => exact ⟨fun hw => (nomatch widv.symm.trans hw), fun _ => ⟨idr, wid⟩⟩
  | captured _ widv idr => exact ⟨fun _ => idr ▸ withWorker_worker .., fun hw => nomatch widv.symm.trans hw⟩
  | packed _ ts c wid widv idr =>
    exact ⟨fun _ => by rw [idr, wid, packIdentifier_worker], fun hw => nomatch widv.symm.trans hw⟩

/-- A captured identity lands in a zero `S.IDR` by R28, and so stands there alone. -/
theorem IdentityEffect.keeps_idrShape {s t : State} (e : IdentityEffect s t) (hcfg : t.cfg = s.cfg)
    (hid : s.IdentityInv) (h : s.IdrShape) : t.IdrShape := by
  cases e with
  | kept wid _ idr =>
    unfold State.IdrShape
    rwa [wid, idr, hcfg]
  | cleared _ _ _ idr => exact .inl idr
  | captured fresh _ idr =>
    have hzero : s.idr = 0#96 := (hid.uncaptured fresh).1
    exact .inr (.inl (hzero ▸ idr))
  | packed _ ts c _ _ idr =>
    refine .inr (.inr ?_)
    rw [hcfg, idr]
    exact packIdentifier_wellFormed s.cfg ts c s.wid

/-- Asserting reset puts the held values, a dropped command keeps them, and a command runs only outside reset. -/
theorem step_keeps_resetHeld {s t : State} (h : step s = .next t) (held : s.ResetHeld) : t.ResetHeld := by
  obtain ⟨-, ⟨-, rfl⟩ | ⟨lvl, rest, -, rfl⟩ | ⟨c, rest, -, -, rfl⟩ | ⟨c, rest, why, -, hr, -, rfl⟩ |
    ⟨c, rest, i, -, hr, -, he⟩⟩ := step_cases h
  · exact held
  · cases lvl with
    | true => exact fun _ => ⟨rfl, rfl, rfl, rfl⟩
    | false => exact fun hin => nomatch hin
  · exact held
  · exact held
  · obtain ⟨-, hkept, -⟩ := exec_frame he
    exact fun hin => nomatch (hkept.trans hr).symm.trans hin

theorem step_keeps_inv {s t : State} (inv : s.Inv) (h : step s = .next t) : t.Inv where
  identity := (step_identityEffect h).keeps_identityInv inv.identity
  held := step_keeps_resetHeld h inv.held
  shape := (step_identityEffect h).keeps_idrShape (step_cfg h) inv.identity inv.shape

/-- Settles O6: the effect of a step on the identity keeps two parts of the invariant, the reset line's rule the third. -/
theorem stepKeepsInvariant : Obligations.StepKeepsInvariant := fun _ _ => step_keeps_inv

theorem resetWith_inv (cfg : Config) (ins : List HostInput) : State.Inv { State.resetWith cfg with inputs := ins } where
  identity := ⟨nofun, fun _ => ⟨rfl, rfl⟩⟩
  held := nofun
  shape := .inl rfl

theorem reaches_keeps_inv {s t : State} (run : Reaches s t) (inv : s.Inv) : t.Inv :=
  reaches_keeps (fun _ _ => step_keeps_inv) run inv

/-- Settles O8: the invariant holds after reset and along every run, and R28 is its first part. -/
theorem reachableIdentityRelation : Obligations.ReachableIdentityRelation := fun cfg ins _ run =>
  have ⟨captured, uncaptured⟩ := (reaches_keeps_inv run (resetWith_inv cfg ins)).identity
  ⟨captured, uncaptured⟩

/-! ### Inside one reset interval -/

/-- Without reset, a captured identity is never written again (R23, R24). -/
theorem step_keeps_captured {s t : State} (h : step s = .next t) (noReset : ¬ s.Resets) (hw : s.widv = true) :
    t.widv = true ∧ t.wid = s.wid := by
  cases step_identityEffect h with
  | kept wid widv _ => exact ⟨widv.trans hw, wid⟩
  | cleared resets => exact absurd resets noReset
  | captured fresh => exact nomatch fresh.symm.trans hw
  | packed _ _ _ wid widv _ => exact ⟨widv, wid⟩

theorem run_keeps_captured {s t : State} (run : ReachesWithoutReset s t) (hw : s.widv = true) :
    t.widv = true ∧ t.wid = s.wid := by
  refine reachesWithoutReset_keeps (P := fun u => u.widv = true ∧ u.wid = s.wid) ?_ run ⟨hw, rfl⟩
  rintro u v ⟨hu, hwid⟩ noReset last
  obtain ⟨hv, hwid'⟩ := step_keeps_captured last noReset hu
  exact ⟨hv, hwid'.trans hwid⟩

/-- Settles O10: the identity is constant along the run, and PACK puts it in the worker field of its answer. -/
theorem packedWorkerFieldIsConstant : Obligations.PackedWorkerFieldIsConstant := by
  intro s t c hw run
  obtain ⟨ht, hwid⟩ := run_keeps_captured run hw
  exact ⟨hwid, _, _, exec_pack_packs ht c, rfl, rfl, (packIdentifier_worker ..).trans hwid⟩

/-- With an accepted PACK behind it: the identity is captured and `S.IDR` well formed (R29). -/
def State.HoldsValidId (s : State) : Prop := s.widv = true ∧ WellFormedId s.cfg s.idr

theorem step_keeps_validId {s t : State} (h : step s = .next t) (noReset : ¬ s.Resets) (hs : s.HoldsValidId) :
    t.HoldsValidId := by
  obtain ⟨hw, hid⟩ := hs
  refine ⟨(step_keeps_captured h noReset hw).1, ?_⟩
  rw [step_cfg h]
  cases step_identityEffect h with
  | kept _ _ idr => exact idr ▸ hid
  | cleared resets => exact absurd resets noReset
  | captured fresh => exact nomatch fresh.symm.trans hw
  | packed _ ts c _ _ idr => exact idr ▸ packIdentifier_wellFormed s.cfg ts c s.wid

theorem exec_pack_validId {s t : State} {c : Byte} (h : exec (.pack c) s = .next t) (hw : s.widv = true) :
    t.HoldsValidId := by
  cases (exec_pack_packs hw c).symm.trans h
  exact ⟨hw, packIdentifier_wellFormed ..⟩

theorem exec_valid (len : Word24) (s : State) :
    exec (.valid len) s = .next (s.answered (validate s.cfg len s.din)) := rfl

theorem exec_valid_of_wellFormed {s : State} (h : WellFormedId s.cfg s.din) :
    exec (.valid 12#24) s = .next (s.answered ⟨.ok, 0#96⟩) := by
  obtain ⟨hversion, hchecksum⟩ := h
  have hok : validate s.cfg 12#24 s.din = ⟨.ok, 0#96⟩ := (validate_ok_iff s.cfg s.din).2 ⟨hversion, hchecksum.symm⟩
  rw [exec_valid, hok]

/-- Settles O9: the accepted PACK makes `S.IDR` well formed, and every step without reset keeps it so. -/
theorem idrStaysValidAfterPack : Obligations.IdrStaysValidAfterPack := by
  intro s u t v c n rest hi hr hd hw hstep run hcfg hdin
  have hexec : exec (.pack n) s = .next u := (step_of_decode (poly_ne_zero_of_step hstep) hr hi hd).symm.trans hstep
  obtain ⟨-, hid⟩ := reachesWithoutReset_keeps (fun _ _ hs noReset last => step_keeps_validId last noReset hs) run
    (exec_pack_validId hexec hw)
  exact exec_valid_of_wellFormed (hcfg ▸ hdin ▸ hid)

/-! ### Blocks beside each other -/

/-- Everything a step of block `k` can do: nothing where there is none, else that block's own step in its place. -/
theorem stepBlock_cases {bs bs' : List State} {k : Nat} (h : stepBlock bs k = .next bs') :
    (bs[k]? = none ∧ bs' = bs) ∨ ∃ s t, bs[k]? = some s ∧ step s = .next t ∧ bs' = bs.set k t := by
  unfold stepBlock at h
  cases hk : bs[k]? with
  | none =>
    rw [hk] at h
    exact .inl ⟨rfl, (Host.Outcome.next.inj h).symm⟩
  | some s =>
    cases hs : step s with
    | next t =>
      simp only [hk, hs] at h
      exact .inr ⟨s, t, rfl, hs, (Host.Outcome.next.inj h).symm⟩
    | fault r => exact nomatch r
    | refused r => simp [hk, hs] at h

theorem stepBlock_other {bs bs' : List State} {k j : Nat} (h : stepBlock bs k = .next bs') (hj : j ≠ k) :
    bs'[j]? = bs[j]? := by
  obtain ⟨-, rfl⟩ | ⟨s, t, -, -, rfl⟩ := stepBlock_cases h
  · rfl
  · exact List.getElem?_set_ne hj.symm

theorem stepBlock_same {bs bs' : List State} {k : Nat} {s : State} (hk : bs[k]? = some s)
    (h : stepBlock bs k = .next bs') : ∃ t, step s = .next t ∧ bs'[k]? = some t := by
  obtain ⟨hnone, -⟩ | ⟨s', t, hk', hs, rfl⟩ := stepBlock_cases h
  · cases hnone.symm.trans hk
  · cases hk'.symm.trans hk
    obtain ⟨hlt, -⟩ := List.getElem?_eq_some_iff.mp hk
    exact ⟨t, hs, List.getElem?_set_self hlt⟩

theorem answerOf_pack {s : State} (hw : s.widv = true) (c : Byte) :
    answerOf (exec (.pack c) s) =
      some ⟨.ok, packIdentifier s.cfg (packTimeWord (dinTimestamp s.din) c) s.wid⟩ := by
  rw [exec_pack_packs hw]
  rfl

/-- Settles O11: the step replaces one entry of the list, and PACK's answer is a function of parameters, identity,
timestamp and counter. -/
theorem blocksAreIndependent : Obligations.BlocksAreIndependent := by
  refine ⟨fun _ _ _ _ => stepBlock_other, fun _ _ _ _ => stepBlock_same, fun a b c hcfg hwid ha hb hts => ?_⟩
  have hts : dinTimestamp a.din = dinTimestamp b.din := hts
  rw [answerOf_pack ha, answerOf_pack hb, hcfg, hwid, hts]

end Sys2Proof.Machine
end

section
/-! PROOFS. The statements of spec/20_memory.md: the layout of an identifier (R40 to R43, R46), the order of identifiers
(R44), and the order in which the host's inputs are consumed (R51, R52). -/

namespace Sys2Proof.Machine

/-! ### The fields of an identifier -/

/-- A field with `lo` bits below it and `first` above starts at source bit `first`, most significant bit first (R41). -/
theorem extract_getMsbD_eq_sourceBit (v : Data) {lo n first : Nat} (hw : first + n + lo = 96) (i : Nat) (hi : i < n) :
    (v.extractLsb' lo n).getMsbD i = sourceBit v (first + i) := by
  have hlt : n - 1 - i < n := by omega
  have hbit : lo + (n - 1 - i) = 95 - (first + i) := by omega
  simp [sourceBit, BitVec.getMsbD_eq_getLsbD, hi, hlt, hbit]

/-- The time-word is its three fields side by side (R43). -/
theorem timeWordOf_eq_fields (v : Data) : timeWordOf v = versionOf v ++ timestampOf v ++ counterOf v := by
  unfold versionOf timestampOf counterOf
  rw [BitVec.extractLsb'_append_extractLsb'_eq_extractLsb', BitVec.extractLsb'_append_extractLsb'_eq_extractLsb']
    <;> rfl

/-- An identifier is its time-word, worker identity and checksum side by side (R42, R43). -/
theorem eq_timeWord_worker_checksum (v : Data) : v = timeWordOf v ++ workerOf v ++ checksumOf v := by
  unfold timeWordOf workerOf checksumOf
  refine BitVec.extractLsb'_eq_self.symm.trans ?_
  rw [BitVec.extractLsb'_append_extractLsb'_eq_extractLsb', BitVec.extractLsb'_append_extractLsb'_eq_extractLsb']
    <;> rfl

/-- Bytes 0 to 7, big-endian, are the time-word (R43). -/
theorem timeWordOf_eq_bytes (v : Data) :
    timeWordOf v = byteOf v 0 ++ byteOf v 1 ++ byteOf v 2 ++ byteOf v 3 ++ byteOf v 4 ++ byteOf v 5 ++ byteOf v 6
      ++ byteOf v 7 := by
  unfold byteOf
  iterate 7 rw [BitVec.extractLsb'_append_extractLsb'_eq_extractLsb']
  all_goals rfl

/-- Settles O12: the bytes and the source bits are bits of the value, each field starts at its source bit, and the
fields stand side by side. -/
theorem identifierLayout : Obligations.IdentifierLayout := by
  intro v
  have field {lo n first : Nat} (hw : first + n + lo = 96) := extract_getMsbD_eq_sourceBit v hw
  refine ⟨fun k j _ hj => byteOf_bit v k j hj, fun _ _ => rfl, fun i hi => ?_, field rfl, field rfl, field rfl,
    field rfl, ?_⟩
  · exact (field rfl i hi).trans (congrArg _ (Nat.zero_add i))
  · rw [← timeWordOf_eq_fields]
    exact eq_timeWord_worker_checksum v

/-- Settles O13: the time-word as its fields and as its bytes, and its top four bits as the version. -/
theorem timeWordIsBytes0To7 : Obligations.TimeWordIsBytes0To7 := fun v =>
  ⟨timeWordOf_eq_fields v, rfl, timeWordOf_eq_bytes v, (versionOf_eq_timeWord v).symm⟩

/-! ### The order of identifiers -/

/-- The number a byte string writes down, most significant byte first, below the digits of `n`. -/
def bigEndian (n : Nat) (bs : List Byte) : Nat := bs.foldl (fun m b => 256 * m + b.toNat) n

@[simp] theorem bigEndian_nil (n : Nat) : bigEndian n [] = n := rfl

@[simp] theorem bigEndian_cons (n : Nat) (b : Byte) (bs : List Byte) :
    bigEndian n (b :: bs) = bigEndian (256 * n + b.toNat) bs := rfl

theorem bigEndian_concat (n : Nat) (bs : List Byte) (b : Byte) :
    bigEndian n (bs ++ [b]) = 256 * bigEndian n bs + b.toNat := by
  simp [bigEndian]

/-- Of two numbers written with equally many bytes, the first byte that differs decides: a byte is below 256. -/
theorem bigEndian_lt_iff {bs cs : List Byte} (hlen : bs.length = cs.length) :
    ∀ m n : Nat, bigEndian m bs < bigEndian n cs ↔
      m < n ∨ m = n ∧ List.Lex (fun a b : Byte => a.toNat < b.toNat) bs cs := by
  induction bs generalizing cs with
  | nil =>
    intro m n
    obtain rfl := List.length_eq_zero_iff.mp hlen.symm
    simp
  | cons b bs ih =>
    intro m n
    obtain ⟨c, cs, rfl⟩ := List.exists_cons_of_length_eq_add_one hlen.symm
    have hb := b.isLt
    have hc := c.isLt
    rw [bigEndian_cons, bigEndian_cons, ih (Nat.succ.inj hlen), List.cons_lex_cons_iff, ← BitVec.toNat_inj]
    by_cases hlex : List.Lex (fun a b : Byte => a.toNat < b.toNat) bs cs
    · simp only [hlex, and_true]
      omega
    · simp only [hlex, and_false, or_false]
      omega

theorem byteOf_toNat (v : Data) (k : Nat) : (byteOf v k).toNat = v.toNat / 2 ^ (88 - 8 * k) % 256 := by
  simp [byteOf, Nat.shiftRight_eq_div_pow]

/-- The first `n` bytes write down the value without the bytes below them (R40). -/
theorem bigEndian_firstBytes (v : Data) (n : Nat) (hn : n ≤ 12) :
    bigEndian 0 ((List.range n).map (byteOf v)) = v.toNat / 2 ^ (96 - 8 * n) := by
  induction n with
  | zero => simp [Nat.div_eq_of_lt v.isLt]
  | succ n ih =>
    have hpow : 2 ^ (96 - 8 * n) = 2 ^ (88 - 8 * n) * 256 := by
      rw [show 96 - 8 * n = (88 - 8 * n) + 8 by omega, Nat.pow_add]
    rw [List.range_succ, List.map_append, List.map_singleton, bigEndian_concat, ih (by omega), byteOf_toNat, hpow,
      ← Nat.div_div_eq_div_mul, Nat.div_add_mod, show 96 - 8 * (n + 1) = 88 - 8 * n by omega]

theorem bigEndian_bytes0to11 (v : Data) : bigEndian 0 (bytes0to11 v) = v.toNat := by
  rw [bytes0to11, bigEndian_firstBytes v 12 (Nat.le_refl 12), Nat.pow_zero, Nat.div_one]

/-- Settles O14: the twelve bytes write down the value, and between equally long byte strings the first difference
decides. -/
theorem bytewiseOrderIsNumericOrder : Obligations.BytewiseOrderIsNumericOrder := by
  intro v w
  have hlen : (bytes0to11 v).length = (bytes0to11 w).length := by simp [bytes0to11]
  rw [← bigEndian_bytes0to11 v, ← bigEndian_bytes0to11 w, bigEndian_lt_iff hlen]
  simp

/-! ### The worker identity in its bytes -/

theorem workerOf_bit (v : Data) {j : Nat} (hj : j < 24) : (workerOf v).getLsbD j = v.getLsbD (8 + j) := by
  simp [workerOf, hj]

/-- Bytes 8, 9 and 10 are the worker field's bytes, most significant first (R42, R46). -/
theorem byteOf_eq_workerByte (v : Data) {k : Nat} (hk : k ≤ 2) :
    byteOf v (8 + k) = (workerOf v).extractLsb' (16 - 8 * k) 8 := by
  apply BitVec.eq_of_getLsbD_eq
  intro j hj
  have hfield : 16 - 8 * k + j < 24 := by omega
  have hbit : 88 - 8 * (8 + k) + j = 8 + (16 - 8 * k + j) := by omega
  rw [byteOf_bit v _ j hj, BitVec.getLsbD_extractLsb', workerOf_bit v hfield, hbit]
  simp [hj]

/-- Settles O15: an accepted SETWID puts its immediate in the worker field, whose bytes are bytes 8 to 10. -/
theorem setwidImmediateLandsInBytes8To10 : Obligations.SetwidImmediateLandsInBytes8To10 := by
  intro s u hw
  have hworker := withWorker_worker s.idr u
  have hbyte : ∀ k ≤ 2, byteOf (withWorker s.idr u) (8 + k) = u.extractLsb' (16 - 8 * k) 8 := fun k hk => by
    rw [byteOf_eq_workerByte _ hk, hworker]
  have hbit : ∀ j < 24, (withWorker s.idr u).getLsbD (8 + j) = u.getLsbD j := fun j hj => by
    rw [← workerOf_bit _ hj, hworker]
  exact ⟨_, exec_setwid_captures hw u, hbit, hbyte 0 (by decide), hbyte 1 (by decide), hbyte 2 (by decide)⟩

/-! ### The inputs are consumed in order -/

theorem step_takes_oldest {s t : State} (h : step s = .next t) : t.inputs = s.inputs.tail := by
  obtain ⟨-, ⟨hi, rfl⟩ | ⟨lvl, rest, -, rfl⟩ | ⟨c, rest, -, -, rfl⟩ | ⟨c, rest, why, -, -, -, rfl⟩ |
    ⟨c, rest, i, -, -, -, he⟩⟩ := step_cases h
  · rw [hi, List.tail_nil]
  · cases lvl <;> rfl
  · rfl
  · rfl
  · obtain ⟨-, -, hinputs, -⟩ := exec_frame he
    exact hinputs

section
variable {s : State} {y : HostInput} {rest : List HostInput} (hi : s.inputs = y :: rest) (x : HostInput)
include hi

theorem present_inputs_cons : (s.present x).inputs = y :: (rest ++ [x]) := by
  rw [State.present_inputs, hi, List.cons_append]

theorem present_takeInput : (s.present x).takeInput = s.takeInput.present x := by
  simp [State.takeInput, State.present, hi]

theorem present_respond (st : Status) (d : Data) : (s.present x).respond st d = (s.respond st d).present x := by
  simp [State.respond, State.takeInput, State.present, hi]

theorem present_driveReset (lvl : Bool) : (s.present x).driveReset lvl = (s.driveReset lvl).present x := by
  cases lvl <;> simp [State.driveReset, State.applyReset, State.takeInput, State.present, hi]

theorem present_din : (s.present x).din = s.din := by
  cases y <;> simp [State.din, hi]

/-- A command reads of the inputs the oldest alone, through its data operand (R51, R60); so its writes and its response
come out the same. -/
theorem exec_present {i : Instr} {t : State} (h : exec i s = .next t) : exec i (s.present x) = .next (t.present x) := by
  have hdin := present_din hi x
  have hresp := present_respond hi x
  have hacc (a : Byte) := present_respond (s := s.writeAcc a) hi x
  have hidr (id : Data) := present_respond (s := s.writeIdr id) hi x
  have hwid (w : Word24) := present_respond (s := s.captureWid w) hi x
  cases i with
  | setwid w =>
    cases hw : s.widv with
    | true =>
      cases (exec_setwid_locked hw w).symm.trans h
      rw [exec_setwid_locked (s := s.present x) hw, hresp]
    | false =>
      cases (exec_setwid_captures hw w).symm.trans h
      rw [exec_setwid_captures (s := s.present x) hw, ← hwid]
      rfl
  | pack c =>
    cases hw : s.widv with
    | true =>
      cases (exec_pack_packs hw c).symm.trans h
      rw [exec_pack_packs (s := s.present x) hw, hdin, ← hidr]
      rfl
    | false =>
      cases (exec_pack_nowid hw c).symm.trans h
      rw [exec_pack_nowid (s := s.present x) hw, hresp]
  | crcinit | crcb =>
    cases h
    exact congrArg _ (hacc _ _ _)
  | crc11 | valid =>
    cases h
    simp only [exec, execCrc11, execValid, hdin, hresp, State.present_cfg]
  | nop | tlook | crcrd | rdid =>
    cases h
    exact congrArg _ (hresp _ _)

end

/-- Settles O16: in each case of a step the oldest input is taken off, and the rest of the inputs is not looked at. -/
theorem inputsAreConsumedInOrder : Obligations.InputsAreConsumedInOrder := by
  refine ⟨fun _ _ => step_takes_oldest, fun s t x hne h => ?_⟩
  have hp : s.cfg.crcPoly ≠ 0x00#8 := poly_ne_zero_of_step h
  rw [step_eq_runPort (s := s.present x) hp]
  obtain ⟨-, ⟨hi, -⟩ | ⟨lvl, rest, hi, rfl⟩ | ⟨c, rest, hi, hr, rfl⟩ | ⟨c, rest, why, hi, hr, hd, rfl⟩ |
    ⟨c, rest, i, hi, hr, hd, he⟩⟩ := step_cases h
  · exact absurd hi hne
  · rw [runPort_reset (present_inputs_cons hi x), present_driveReset hi]
  · rw [runPort_held (present_inputs_cons hi x) hr, present_takeInput hi]
  · rw [runPort_command (present_inputs_cons hi x) hr, runWord_of_illegal hd, present_respond hi]
  · rw [runPort_command (present_inputs_cons hi x) hr, runWord_of_command hd, exec_present hi x he]

end Sys2Proof.Machine
end

section
/-! PROOFS. The statements of spec/30_encoding.md: decode and encode (R61, R64, R66, R68), the bits of `DIN` a command
reads (R63, R67), the assembler and its pseudo-instructions (R69, R70). -/

namespace Sys2Proof.Machine

/-! ### The fields of a command word -/

theorem append_eq_append_iff {m n : Nat} {a b : BitVec m} {c d : BitVec n} : a ++ c = b ++ d ↔ a = b ∧ c = d := by
  refine ⟨fun h => ⟨?_, ?_⟩, fun ⟨hhi, hlo⟩ => hhi ▸ hlo ▸ rfl⟩
  · rw [← BitVec.extractLsb'_append_eq_left (a := a) (b := c), h, BitVec.extractLsb'_append_eq_left]
  · rw [← BitVec.extractLsb'_append_eq_right (a := a) (b := c), h, BitVec.extractLsb'_append_eq_right]

/-- `CMD = {OPC, IMM}` (R61). -/
theorem word_eq_append (w : Word) : w = opcOf w ++ immOf w := by
  unfold opcOf immOf
  rw [BitVec.extractLsb'_append_extractLsb'_eq_extractLsb' (by rfl)]
  exact BitVec.extractLsb'_eq_self.symm

/-- The immediate is its upper 16 bits, reserved in format B, above `b8` (R61). -/
theorem immOf_eq_append (w : Word) : immOf w = w.extractLsb' 8 16 ++ b8Of w := by
  unfold immOf b8Of
  rw [BitVec.extractLsb'_append_extractLsb'_eq_extractLsb' (by rfl)]

theorem opcOf_toNat (w : Word) : (w >>> 24).toNat = (opcOf w).toNat := by
  have hw := w.isLt
  simp only [opcOf, BitVec.toNat_ushiftRight, BitVec.extractLsb'_toNat, Nat.shiftRight_eq_div_pow]
  omega

/-- The reserved bits of a format, as a mask of the immediate (R61). -/
def reservedMask : Format → Word24
  | .n => 0xFFFFFF#24
  | .b => 0xFFFF00#24
  | .w => 0x000000#24

theorem reservedClear_iff_mask (fmt : Format) (w : Word) :
    reservedClear fmt w = true ↔ immOf w &&& reservedMask fmt = 0#24 := by
  cases fmt with
  | n =>
    rw [show reservedMask .n = BitVec.allOnes 24 from rfl, BitVec.and_allOnes]
    exact beq_iff_eq
  | b =>
    rw [show reservedMask .b = BitVec.allOnes 16 ++ 0#8 from rfl, immOf_eq_append, BitVec.and_append,
      BitVec.and_allOnes, BitVec.and_zero, show 0#24 = 0#16 ++ 0#8 from rfl, append_eq_append_iff]
    simp [reservedClear]
  | w => simp [reservedMask]

/-- A mask of a word masks its opcode and its immediate apart. -/
theorem word_and_eq_iff (w : Word) (m o : Byte) (k : Word24) :
    w &&& (m ++ k) = o ++ 0#24 ↔ opcOf w &&& m = o ∧ immOf w &&& k = 0#24 := by
  conv_lhs => rw [word_eq_append w, BitVec.and_append, append_eq_append_iff]

/-! ### The decoder's opcode map -/

/-- The format of an assigned opcode (R64). -/
def formatOf (opc : Byte) : Option Format := (lookupOpcode opc).map Prod.fst

/-- The opcodes R64 assigns to a format. -/
def opcodesOf : Format → List Nat
  | .n => [0x00, 0x02, 0x04, 0x05, 0x12]
  | .b => [0x01, 0x03, 0x11]
  | .w => [0x10, 0x20]

/-- The word of a format with an opcode and with the operand of `w`, its reserved bits clear (R61). -/
def formOf (opc : Byte) (w : Word) : Format → Word
  | .n => formN opc
  | .b => formB opc (b8Of w)
  | .w => formW opc (immOf w)

/-- Each row of the opcode map: its opcode is one of its format's, and its command's word is of that form (R64). -/
theorem lookupOpcode_sound {opc : Byte} {fmt : Format} {make : Word → Instr}
    (h : lookupOpcode opc = some (fmt, make)) :
    opc.toNat ∈ opcodesOf fmt ∧ ∀ w, encode (make w) = formOf opc w fmt := by
  unfold lookupOpcode at h
  split_ifs at h <;> cases h <;> subst_vars <;> exact ⟨by decide, fun _ => rfl⟩

theorem formatOf_of_mem {fmt : Format} : ∀ n ∈ opcodesOf fmt, formatOf (BitVec.ofNat 8 n) = some fmt := by
  cases fmt <;> decide

theorem formatOf_eq_some_iff (opc : Byte) (fmt : Format) : formatOf opc = some fmt ↔ opc.toNat ∈ opcodesOf fmt := by
  refine ⟨fun h => ?_, fun h => ?_⟩
  · obtain ⟨⟨_, make⟩, hlookup, rfl⟩ := Option.map_eq_some_iff.1 h
    exact (lookupOpcode_sound hlookup).1
  · simpa using formatOf_of_mem _ h

theorem formatOf_eq_none_iff (opc : Byte) : formatOf opc = none ↔ ∀ fmt, opc.toNat ∉ opcodesOf fmt := by
  simp only [← formatOf_eq_some_iff]
  exact Option.eq_none_iff_forall_ne_some

theorem decode_unassigned {w : Word} (h : formatOf (opcOf w) = none) : decode w = .illegal .unassignedOpcode := by
  simp [decode, Option.map_eq_none_iff.1 h]

theorem decode_of_lookup {w : Word} {fmt : Format} {make : Word → Instr}
    (h : lookupOpcode (opcOf w) = some (fmt, make)) :
    decode w = if reservedClear fmt w then .command (make w) else .illegal .reservedBits := by
  simp [decode, h]

theorem decode_reserved {w : Word} {fmt : Format} (h : formatOf (opcOf w) = some fmt)
    (hr : reservedClear fmt w = false) : decode w = .illegal .reservedBits := by
  obtain ⟨⟨_, make⟩, hlookup, rfl⟩ := Option.map_eq_some_iff.1 h
  rw [decode_of_lookup hlookup, hr]
  rfl

/-! ### Decode and encode agree -/

theorem decode_encode (i : Instr) : decode (encode i) = .command i := by
  cases i with
  | nop | crcinit | crcrd | crc11 | rdid => rfl
  | tlook | crcb | pack | setwid | valid => simp [decode, encode, lookupOpcode]

theorem eq_formOf_of_reservedClear {fmt : Format} {w : Word} (h : reservedClear fmt w = true) :
    w = formOf (opcOf w) w fmt := by
  refine (word_eq_append w).trans ?_
  cases fmt with
  | n => rw [beq_iff_eq.1 h]; rfl
  | b =>
    rw [immOf_eq_append w, beq_iff_eq.1 h]
    exact (BitVec.append_assoc (x₁ := opcOf w) (x₂ := 0#16) (x₃ := b8Of w)).symm
  | w => rfl

/-- A word with an assigned opcode and its reserved bits clear is a command's, and that command's encoding. -/
theorem decode_legal {w : Word} {fmt : Format} (h : formatOf (opcOf w) = some fmt)
    (hr : reservedClear fmt w = true) : ∃ i, decode w = .command i ∧ w = encode i := by
  obtain ⟨⟨_, make⟩, hlookup, rfl⟩ := Option.map_eq_some_iff.1 h
  obtain ⟨-, hform⟩ := lookupOpcode_sound hlookup
  refine ⟨make w, ?_, (eq_formOf_of_reservedClear hr).trans (hform w).symm⟩
  rw [decode_of_lookup hlookup, hr]
  rfl

theorem decode_eq_command_iff (w : Word) (i : Instr) : decode w = .command i ↔ w = encode i := by
  refine ⟨fun hd => ?_, fun h => h ▸ decode_encode i⟩
  cases hf : formatOf (opcOf w) with
  | none => cases (decode_unassigned hf).symm.trans hd
  | some fmt =>
    cases hr : reservedClear fmt w with
    | false => cases (decode_reserved hf hr).symm.trans hd
    | true =>
      obtain ⟨j, hj, hw⟩ := decode_legal hf hr
      cases hj.symm.trans hd
      exact hw

/-- Settles O17: each encoding decodes to its command, and a legal word is its opcode, its operand and zeros, which is
the encoding of the command it decodes to. -/
theorem decodeAndEncodeAgree : Obligations.DecodeAndEncodeAgree := decode_eq_command_iff

/-! ### The opcode map by match and mask -/

theorem encodesItsRow (i : Instr) : Laws.EncodesItsRow.Statement i := by
  cases i with
  | nop => exact Laws.EncodesItsRow.nop
  | tlook idx => exact Laws.EncodesItsRow.tlook idx
  | crcinit => exact Laws.EncodesItsRow.crcinit
  | crcb b => exact Laws.EncodesItsRow.crcb b
  | crcrd => exact Laws.EncodesItsRow.crcrd
  | crc11 => exact Laws.EncodesItsRow.crc11
  | setwid w => exact Laws.EncodesItsRow.setwid w
  | pack c => exact Laws.EncodesItsRow.pack c
  | rdid => exact Laws.EncodesItsRow.rdid
  | valid len => exact Laws.EncodesItsRow.valid len

theorem row_bits : ∀ r ∈ opcodeTable,
    r.maskBits = 0xFF#8 ++ reservedMask r.format ∧ r.matchBits = opcOf r.matchBits ++ 0#24 := by decide

/-- A row's match and mask say: the row's opcode, and the reserved bits of its format clear (R61, R64). -/
theorem row_match_iff {r : Row} (hr : r ∈ opcodeTable) (w : Word) :
    w &&& r.maskBits = r.matchBits ↔ opcOf w = opcOf r.matchBits ∧ reservedClear r.format w = true := by
  obtain ⟨hmask, hmatch⟩ := row_bits r hr
  rw [hmask, hmatch, word_and_eq_iff, ← reservedClear_iff_mask, ← hmatch, show 0xFF#8 = BitVec.allOnes 8 from rfl,
    BitVec.and_allOnes]

theorem row_ext_mnemonic : ∀ r ∈ opcodeTable, ∀ r' ∈ opcodeTable, r.mnemonic = r'.mnemonic → r = r' := by decide

theorem row_ext_opcode : ∀ r ∈ opcodeTable, ∀ r' ∈ opcodeTable, opcOf r.matchBits = opcOf r'.matchBits → r = r' := by
  decide

theorem formatOf_row : ∀ r ∈ opcodeTable, formatOf (opcOf r.matchBits) = some r.format := by decide

/-- A command's word matches the row with its mnemonic (R64). -/
theorem encode_matches_row (i : Instr) :
    ∃ r ∈ opcodeTable, r.mnemonic = mnemonicOf i ∧ encode i &&& r.maskBits = r.matchBits := by
  obtain ⟨r, hr, hname, hopc, hclear⟩ := encodesItsRow i
  exact ⟨r, hr, hname, (row_match_iff hr _).2 ⟨hopc, hclear⟩⟩

theorem rows_disjoint {r r' : Row} (hr : r ∈ opcodeTable) (hr' : r' ∈ opcodeTable) {w : Word}
    (h : w &&& r.maskBits = r.matchBits) (h' : w &&& r'.maskBits = r'.matchBits) : r = r' := by
  obtain ⟨hopc, -⟩ := (row_match_iff hr w).1 h
  obtain ⟨hopc', -⟩ := (row_match_iff hr' w).1 h'
  exact row_ext_opcode r hr r' hr' (hopc.symm.trans hopc')

theorem row_match_iff_decode {r : Row} (hr : r ∈ opcodeTable) (w : Word) :
    w &&& r.maskBits = r.matchBits ↔ ∃ i, decode w = .command i ∧ mnemonicOf i = r.mnemonic := by
  constructor
  · intro h
    obtain ⟨hopc, hclear⟩ := (row_match_iff hr w).1 h
    obtain ⟨i, hd, rfl⟩ := decode_legal (hopc ▸ formatOf_row r hr) hclear
    obtain ⟨r', hr', hname, h'⟩ := encode_matches_row i
    exact ⟨i, hd, rows_disjoint hr hr' h h' ▸ hname.symm⟩
  · rintro ⟨i, hd, hi⟩
    obtain rfl := (decode_eq_command_iff w i).1 hd
    obtain ⟨r', hr', hname, h'⟩ := encode_matches_row i
    exact row_ext_mnemonic r' hr' r hr (hname.trans hi) ▸ h'

theorem opcode_assigned_has_row : ∀ fmt, ∀ n ∈ opcodesOf fmt, ∃ r ∈ opcodeTable, n = (opcOf r.matchBits).toNat := by
  intro fmt
  cases fmt <;> decide

/-- An opcode of no row is not in the decoder's map (R64). -/
theorem formatOf_of_no_row {opc : Byte} (h : ∀ r ∈ opcodeTable, opc ≠ opcOf r.matchBits) : formatOf opc = none := by
  refine (formatOf_eq_none_iff opc).2 fun fmt hmem => ?_
  obtain ⟨r, hr, hopc⟩ := opcode_assigned_has_row fmt _ hmem
  exact h r hr (BitVec.toNat_inj.1 hopc)

/-- Settles O18: a row's match and mask are its opcode and its reserved bits, and the rows' opcodes are distinct. -/
theorem opcodeMap : Obligations.OpcodeMap :=
  ⟨rfl, fun _ => row_match_iff_decode, fun _ hr _ hr' _ => rows_disjoint hr hr',
    fun _ h => decode_unassigned (formatOf_of_no_row h)⟩

/-! ### Illegal words -/

/-- The two reasons of R66. -/
theorem illegal_iff (w : Word) : (∃ why, decode w = .illegal why) ↔
    formatOf (opcOf w) = none ∨ ∃ fmt, formatOf (opcOf w) = some fmt ∧ reservedClear fmt w = false := by
  constructor
  · rintro ⟨why, hd⟩
    cases hf : formatOf (opcOf w) with
    | none => exact .inl rfl
    | some fmt =>
      refine .inr ⟨fmt, rfl, Bool.eq_false_iff.2 fun hr => ?_⟩
      obtain ⟨i, hi, -⟩ := decode_legal hf hr
      cases hi.symm.trans hd
  · rintro (hf | ⟨fmt, hf, hr⟩)
    · exact ⟨_, decode_unassigned hf⟩
    · exact ⟨_, decode_reserved hf hr⟩

/-- The unassigned opcodes lie in R66's three ranges. -/
theorem formatOf_eq_none_iff_range (opc : Byte) : formatOf opc = none ↔
    (0x06 ≤ opc.toNat ∧ opc.toNat ≤ 0x0F) ∨ (0x13 ≤ opc.toNat ∧ opc.toNat ≤ 0x1F) ∨ 0x21 ≤ opc.toNat := by
  have hall : formatOf opc = none ↔
      opc.toNat ∉ opcodesOf .n ∧ opc.toNat ∉ opcodesOf .b ∧ opc.toNat ∉ opcodesOf .w := by
    refine (formatOf_eq_none_iff opc).trans ⟨fun h => ⟨h _, h _, h _⟩, fun ⟨hn, hb, hw⟩ fmt => ?_⟩
    cases fmt <;> assumption
  rw [hall]
  simp only [opcodesOf, List.mem_cons, List.not_mem_nil, or_false]
  omega

theorem reserved_set_iff (w : Word) : (∃ fmt, formatOf (opcOf w) = some fmt ∧ reservedClear fmt w = false) ↔
    ((opcOf w).toNat ∈ opcodesOf .n ∧ w.extractLsb' 0 24 ≠ 0#24) ∨
    ((opcOf w).toNat ∈ opcodesOf .b ∧ w.extractLsb' 8 16 ≠ 0#16) := by
  simp only [formatOf_eq_some_iff]
  constructor
  · rintro ⟨fmt, hmem, hr⟩
    cases fmt with
    | n => exact .inl ⟨hmem, beq_eq_false_iff_ne.1 hr⟩
    | b => exact .inr ⟨hmem, beq_eq_false_iff_ne.1 hr⟩
    | w => cases hr
  · rintro (⟨hmem, hne⟩ | ⟨hmem, hne⟩)
    · exact ⟨.n, hmem, beq_eq_false_iff_ne.2 hne⟩
    · exact ⟨.b, hmem, beq_eq_false_iff_ne.2 hne⟩

/-- The check's mask of the whole word masks the reserved bits of its immediate. -/
theorem word_and_reservedMask (fmt : Format) (w : Word) :
    (w &&& (0#8 ++ reservedMask fmt) == 0#32) = reservedClear fmt w := by
  rw [Bool.eq_iff_iff, beq_iff_eq, show 0#32 = 0#8 ++ 0#24 from rfl, word_and_eq_iff, reservedClear_iff_mask]
  simp

theorem wordLegal_of_formatOf {w : Word} {fmt : Format} (h : formatOf (opcOf w) = some fmt) :
    wordLegal w = reservedClear fmt w := by
  have hmem := (formatOf_eq_some_iff _ fmt).1 h
  have hmask := word_and_reservedMask fmt w
  unfold wordLegal
  rw [opcOf_toNat]
  cases fmt <;> simp only [opcodesOf, List.mem_cons, List.not_mem_nil, or_false] at hmem
  case n => rw [if_neg (by omega), if_neg (by omega), if_neg (by omega)]; exact hmask
  case b => rw [if_neg (by omega), if_neg (by omega), if_pos (by omega)]; exact hmask
  case w => rw [if_neg (by omega), if_pos (by omega)]; rfl

theorem wordLegal_unassigned {w : Word} (h : formatOf (opcOf w) = none) : wordLegal w = false := by
  unfold wordLegal
  rw [opcOf_toNat]
  exact if_pos ((formatOf_eq_none_iff_range _).1 h)

theorem wordLegal_eq_false_iff (w : Word) : wordLegal w = false ↔ ∃ why, decode w = .illegal why := by
  rw [illegal_iff]
  cases hf : formatOf (opcOf w) with
  | none => simp [wordLegal_unassigned hf]
  | some fmt => simp [wordLegal_of_formatOf hf]

theorem respond_eq_consumed {s : State} {c : Command} {rest : List HostInput} (hi : s.inputs = .command c :: rest)
    (st : Status) (d : Data) : s.respond st d = { s with inputs := rest, responses := ⟨st, d⟩ :: s.responses } := by
  simp [State.respond, State.takeInput, hi]

/-- Settles O19: the two reasons of R66 are the decoder's, and both are answered alike. -/
theorem illegalWords : Obligations.IllegalWords := by
  refine ⟨fun w => ?_, wordLegal_eq_false_iff, fun w => ?_, fun s c rest why hp hr hi hd => ?_⟩
  · rw [opcOf_toNat, illegal_iff, formatOf_eq_none_iff_range, reserved_set_iff]
    rfl
  · cases hd : decode w with
    | illegal why => exact .inl ⟨why, rfl⟩
    | command i => exact .inr ⟨i, rfl, fun j hj => (Decoded.command.inj hj).symm⟩
  · rw [step_command hp hr hi, runWord_of_illegal hd, respond_eq_consumed hi]

/-! ### The check order -/

theorem decode_reserved_formatN {w : Word} (hmem : (w >>> 24).toNat ∈ opcodesOf .n) (hne : w.extractLsb' 0 24 ≠ 0#24) :
    decode w = .illegal .reservedBits :=
  decode_reserved ((formatOf_eq_some_iff _ .n).2 (opcOf_toNat w ▸ hmem)) (beq_eq_false_iff_ne.2 hne)

theorem decode_reserved_formatB {w : Word} (hmem : (w >>> 24).toNat ∈ opcodesOf .b) (hne : w.extractLsb' 8 16 ≠ 0#16) :
    decode w = .illegal .reservedBits :=
  decode_reserved ((formatOf_eq_some_iff _ .b).2 (opcOf_toNat w ▸ hmem)) (beq_eq_false_iff_ne.2 hne)

/-- Two blocks presented the same word execute the same command, or both answer ILLEGAL (R68). -/
theorem step_same_word {s s' : State} {w : Word} {d d' : Data} {rest rest' : List HostInput}
    (hp : s.cfg.crcPoly ≠ 0x00#8) (hp' : s'.cfg.crcPoly ≠ 0x00#8) (hr : s.inReset = false) (hr' : s'.inReset = false)
    (hi : s.inputs = .command ⟨w, d⟩ :: rest) (hi' : s'.inputs = .command ⟨w, d'⟩ :: rest') :
    (∃ i, step s = exec i s ∧ step s' = exec i s') ∨
    (answerOf (step s) = some ⟨.illegal, 0#96⟩ ∧ answerOf (step s') = some ⟨.illegal, 0#96⟩) := by
  cases hd : decode w with
  | command i => exact .inl ⟨i, step_of_decode hp hr hi hd, step_of_decode hp' hr' hi' hd⟩
  | illegal why =>
    rw [step_command hp hr hi, step_command hp' hr' hi', runWord_of_illegal hd, runWord_of_illegal hd]
    exact .inr ⟨rfl, rfl⟩

/-- Settles O21: the opcode's format decides the first two checks, and the legal words are the encodings. -/
theorem decodeCheckOrder : Obligations.DecodeCheckOrder := by
  refine ⟨fun w h => ?_, fun _ => decode_reserved_formatN, fun _ => decode_reserved_formatB, decode_encode .nop,
    fun b => decode_encode (.tlook b), decode_encode .crcinit, fun b => decode_encode (.crcb b), decode_encode .crcrd,
    decode_encode .crc11, fun u => decode_encode (.setwid u), fun b => decode_encode (.pack b), decode_encode .rdid,
    fun u => decode_encode (.valid u), fun _ _ _ _ _ _ _ => step_same_word⟩
  refine decode_unassigned ((formatOf_eq_none_iff_range _).2 ?_)
  simp only [opcOf_toNat, List.mem_cons, List.not_mem_nil, or_false] at h
  omega

/-- Settles O22: each word is the encoding of its command. -/
theorem sampleWordsDecode : Obligations.SampleWordsDecode :=
  ⟨decode_encode .nop, decode_encode (.tlook 0xAA#8), decode_encode (.crcb 0x31#8), decode_encode (.setwid 0xAAAAAA#24),
    decode_encode (.pack 0x01#8), decode_encode (.valid 12#24)⟩

/-! ### The bits of `DIN` a command reads -/

/-- Two values of `DIN` that agree in the bits R63 lists for a command. -/
def SameReading : Instr → Data → Data → Prop
  | .crc11, d, d' => d.extractLsb' 8 88 = d'.extractLsb' 8 88
  | .pack _, d, d' => dinTimestamp d = dinTimestamp d'
  | .valid len, d, d' => len = Config.idLen → d = d'
  | _, _, _ => True

/-- The checksum reads bytes 0 to 10 alone (R45). -/
theorem checksum_eq_bytes0to10 (cfg : Config) (d : Data) : checksum cfg d = checksum cfg (d.extractLsb' 8 88) := by
  have hd : d = d.extractLsb' 8 88 ++ d.extractLsb' 0 8 := by
    rw [BitVec.extractLsb'_append_extractLsb'_eq_extractLsb' (by rfl)]
    exact BitVec.extractLsb'_eq_self.symm
  conv_lhs => rw [checksum, hd, bytes0to10_packed]
  rfl

theorem checksum_congr (cfg : Config) {d d' : Data} (h : d.extractLsb' 8 88 = d'.extractLsb' 8 88) :
    checksum cfg d = checksum cfg d' := by
  rw [checksum_eq_bytes0to10, h, ← checksum_eq_bytes0to10]

/-- Of a wrong length the candidate is not looked at (R121). -/
theorem validate_congr (cfg : Config) {len : Word24} {d d' : Data} (h : len = Config.idLen → d = d') :
    validate cfg len d = validate cfg len d' := by
  by_cases hlen : len = Config.idLen
  · rw [h hlen]
  · simp [validate, hlen]

/-- The block with other things presented at the port. -/
def State.withInputs (s : State) (ins : List HostInput) : State := { s with inputs := ins }

@[simp] theorem State.withInputs_cfg (s : State) (ins : List HostInput) : (s.withInputs ins).cfg = s.cfg := rfl

section
variable {s : State} {x : HostInput} {rest : List HostInput} (hi : s.inputs = x :: rest) (y : HostInput)
include hi

theorem withInputs_respond (st : Status) (d : Data) : (s.withInputs (y :: rest)).respond st d = s.respond st d := by
  simp [State.respond, State.takeInput, State.withInputs, hi]

/-- With another `DIN`, the same in the bits R63 lists, a command does the same. -/
theorem exec_withInputs {i : Instr} (hdin : SameReading i (s.withInputs (y :: rest)).din s.din) :
    exec i (s.withInputs (y :: rest)) = exec i s := by
  have hresp := withInputs_respond hi y
  have hacc (a : Byte) := withInputs_respond (s := s.writeAcc a) hi y
  have hidr (id : Data) := withInputs_respond (s := s.writeIdr id) hi y
  have hwid (w : Word24) := withInputs_respond (s := s.captureWid w) hi y
  cases i with
  | nop | tlook | crcrd | rdid => exact congrArg Host.Outcome.next (hresp _ _)
  | crcinit | crcb => exact congrArg Host.Outcome.next (hacc _ _ _)
  | setwid w =>
    cases hw : s.widv with
    | true =>
      have hw' : (s.withInputs (y :: rest)).widv = true := hw
      rw [exec_setwid_locked hw, exec_setwid_locked hw', hresp]
    | false =>
      have hw' : (s.withInputs (y :: rest)).widv = false := hw
      rw [exec_setwid_captures hw, exec_setwid_captures hw', ← hwid]
      rfl
  | pack c =>
    cases hw : s.widv with
    | true =>
      have hw' : (s.withInputs (y :: rest)).widv = true := hw
      rw [exec_pack_packs hw, exec_pack_packs hw', show dinTimestamp _ = _ from hdin, ← hidr]
      rfl
    | false =>
      have hw' : (s.withInputs (y :: rest)).widv = false := hw
      rw [exec_pack_nowid hw, exec_pack_nowid hw', hresp]
  | crc11 => simp only [exec, execCrc11, hresp, State.withInputs_cfg, checksum_congr s.cfg hdin]
  | valid len => simp only [exec, execValid, hresp, State.withInputs_cfg, validate_congr s.cfg hdin]

end

/-- The model's mask keeps all a command reads. -/
theorem dinMask_sameReading (i : Instr) (d : Data) : SameReading i (d &&& dinMask i) d := by
  cases i with
  | nop | tlook | crcinit | crcb | crcrd | setwid | rdid => trivial
  | crc11 =>
    have hones : (dinMask .crc11).extractLsb' 8 88 = BitVec.allOnes 88 := by decide
    exact BitVec.extractLsb'_and.trans (by rw [hones, BitVec.and_allOnes])
  | pack c =>
    have hones : (dinMask (.pack c)).extractLsb' 0 52 = BitVec.allOnes 52 := by rfl
    exact BitVec.extractLsb'_and.trans (by rw [hones, BitVec.and_allOnes, dinTimestamp])
  | valid len =>
    intro hlen
    rw [dinMask, if_pos hlen]
    exact BitVec.and_allOnes

/-- Settles O20: the command's response and writes read `DIN` through its fields alone. -/
theorem unusedDinBitsAreIgnored : Obligations.UnusedDinBitsAreIgnored := by
  refine ⟨fun i s w d d' rest hi hcrc11 hpack hvalid => ?_, fun i s w d rest hi => ?_⟩
  · have hsame : SameReading i d' d := by
      cases i with
      | nop | tlook | crcinit | crcb | crcrd | setwid | rdid => trivial
      | crc11 => exact (hcrc11 rfl).symm
      | pack c => exact (hpack c rfl).symm
      | valid len => exact fun hlen => (hvalid (congrArg _ hlen)).symm
    obtain ⟨t, ht⟩ := exec_next i s
    refine ⟨t, ht, (exec_withInputs hi _ ?_).trans ht⟩
    rw [State.din_of_command hi]
    exact hsame
  · refine exec_withInputs hi _ ?_
    rw [State.din_of_command hi]
    exact dinMask_sameReading i d

/-! ### The assembler -/

theorem formW_ofNat (o : Byte) {n : Nat} (h : n < 2 ^ 24) :
    formW o (BitVec.ofNat 24 n) = BitVec.ofNat 32 (o.toNat * 2 ^ 24 + n) := by
  apply BitVec.eq_of_toNat_eq
  have ho := o.isLt
  rw [formW, BitVec.toNat_append, BitVec.toNat_ofNat, BitVec.toNat_ofNat, Nat.mod_eq_of_lt h,
    ← Nat.shiftLeft_add_eq_or_of_lt h, Nat.shiftLeft_eq]
  omega

theorem formB_ofNat (o : Byte) {n : Nat} (h : n < 256) :
    formB o (BitVec.ofNat 8 n) = BitVec.ofNat 32 (o.toNat * 2 ^ 24 + n) := by
  have himm : 0#16 ++ BitVec.ofNat 8 n = BitVec.ofNat 24 n := by
    apply BitVec.eq_of_toNat_eq
    rw [BitVec.toNat_append, BitVec.toNat_ofNat, BitVec.toNat_ofNat, BitVec.toNat_ofNat, Nat.zero_mod,
      Nat.zero_shiftLeft, Nat.zero_or]
    omega
  rw [← formW_ofNat o (by omega), formW, ← himm]
  exact BitVec.append_assoc

theorem encode_tlook_ofNat {n : Nat} (h : n < 256) :
    encode (.tlook (BitVec.ofNat 8 n)) = BitVec.ofNat 32 (0x01000000 + n) := formB_ofNat 0x01#8 h

theorem encode_crcb_ofNat {n : Nat} (h : n < 256) :
    encode (.crcb (BitVec.ofNat 8 n)) = BitVec.ofNat 32 (0x03000000 + n) := formB_ofNat 0x03#8 h

theorem encode_pack_ofNat {n : Nat} (h : n < 256) :
    encode (.pack (BitVec.ofNat 8 n)) = BitVec.ofNat 32 (0x11000000 + n) := formB_ofNat 0x11#8 h

theorem encode_setwid_ofNat {n : Nat} (h : n < 2 ^ 24) :
    encode (.setwid (BitVec.ofNat 24 n)) = BitVec.ofNat 32 (0x10000000 + n) := formW_ofNat 0x10#8 h

theorem encode_valid_ofNat {n : Nat} (h : n < 2 ^ 24) :
    encode (.valid (BitVec.ofNat 24 n)) = BitVec.ofNat 32 (0x20000000 + n) := formW_ofNat 0x20#8 h

/-- A line that makes one command: refused exactly when an operand does not fit. -/
theorem assemble_one {l : AsmLine} {fits : Prop} [Decidable fits] {w : Word} {d : Data} (hwf : l.wf = true ↔ fits)
    (hexpand : fits → expand l = [⟨w, d⟩]) : assemble l = if fits then some [⟨w, d⟩] else none := by
  unfold assemble
  by_cases h : fits
  · rw [if_pos h, if_pos (hwf.2 h), hexpand h]
  · rw [if_neg h, if_neg (mt hwf.1 h)]

/-- The word of a line's operand decodes to the line's command. -/
theorem decode_of_encode_eq {i : Instr} {w : Word} (h : encode i = w) : decode w = .command i :=
  h ▸ decode_encode i

theorem and_decide_iff {p q : Prop} [Decidable p] [Decidable q] : (decide p && decide q) = true ↔ p ∧ q := by
  simp

/-- Settles O23: the words of the table are the encodings of the commands the lines name.-/
theorem assemblerWords : Obligations.AssemblerWords := by
  refine ⟨rfl, fun n => ?tlook, rfl, fun n => ?crcb, rfl, fun x => ?crc11, fun n => ?setwid, fun n x => ?pack, rfl,
    fun n x => ?valid, fun n x => ?word, decode_encode .nop, decode_encode .crcinit, decode_encode .crcrd,
    decode_encode .crc11, decode_encode .rdid, fun _ h => decode_of_encode_eq (encode_tlook_ofNat h),
    fun _ h => decode_of_encode_eq (encode_crcb_ofNat h), fun _ h => decode_of_encode_eq (encode_pack_ofNat h),
    fun _ h => decode_of_encode_eq (encode_setwid_ofNat h), fun _ h => decode_of_encode_eq (encode_valid_ofNat h)⟩
  case tlook => exact assemble_one decide_eq_true_iff fun h => by rw [expand, encode_tlook_ofNat h]
  case crcb => exact assemble_one decide_eq_true_iff fun h => by rw [expand, encode_crcb_ofNat h]
  case crc11 => exact assemble_one decide_eq_true_iff fun _ => rfl
  case setwid => exact assemble_one decide_eq_true_iff fun h => by rw [expand, encode_setwid_ofNat h]
  case pack => exact assemble_one and_decide_iff fun h => by rw [expand, encode_pack_ofNat h.1, dinOfNat]
  case valid => exact assemble_one and_decide_iff fun h => by rw [expand, encode_valid_ofNat h.1, dinOfNat]
  case word => exact assemble_one and_decide_iff fun _ => rfl

/-! ### Sequences of steps -/

theorem stepMany_succ {s t : State} (h : step s = .next t) (k : Nat) : stepMany (k + 1) s = stepMany k t := by
  simp [stepMany, h]

theorem stepMany_add (m n : Nat) : ∀ s, stepMany (m + n) s = (stepMany m s).bind (stepMany n) := by
  induction m with
  | zero => intro s; simp [stepMany]
  | succ m ih =>
    intro s
    rw [Nat.add_right_comm, stepMany, stepMany]
    cases step s with
    | next t => exact ih t
    | fault r => rfl
    | refused r => rfl

/-! ### The byte stream -/

theorem step_of_encode {s : State} {c : Command} {rest : List HostInput} {i : Instr} (hp : s.cfg.crcPoly ≠ 0x00#8)
    (hr : s.inReset = false) (hi : s.inputs = .command c :: rest) (hc : c.cmd = encode i) : step s = exec i s :=
  step_of_decode hp hr hi (decode_of_encode_eq hc.symm)

/-- Consecutive CRCBs, each with a `DIN` of its own, feed their bytes into `S.ACC` one after the other (R82, R86). -/
theorem stepMany_crcb (bs : List Byte) : ∀ (s : State) (cs : List Command) (rest : List HostInput),
    cs.map Command.cmd = bs.map (fun b => encode (.crcb b)) → s.cfg.crcPoly ≠ 0x00#8 → s.inReset = false →
    s.inputs = cs.map .command ++ rest →
    ∃ t, stepMany bs.length s = some t ∧ t.cfg = s.cfg ∧ t.inReset = false ∧ t.inputs = rest ∧
      t.acc = crcRegister s.cfg s.acc bs := by
  induction bs with
  | nil =>
    intro s cs rest hcs hp hr hi
    obtain rfl := List.map_eq_nil_iff.1 hcs
    exact ⟨s, rfl, rfl, hr, hi, rfl⟩
  | cons b bs ih =>
    intro s cs rest hcs hp hr hi
    obtain ⟨c, cs, rfl, hc, hcs⟩ := List.map_eq_cons_iff.1 hcs
    have hstep : step s = .next ((s.writeAcc (s.tbl (s.acc ^^^ b))).respond .ok _) := step_of_encode hp hr hi hc
    obtain ⟨t, hrun, ht⟩ := ih ((s.writeAcc (s.tbl (s.acc ^^^ b))).respond .ok _) cs rest hcs hp hr
      (congrArg List.tail hi)
    exact ⟨t, (stepMany_succ hstep _).trans hrun, ht⟩

/-- CRCINIT, CRCBs and CRCRD presented in order leave the bytes' CRC register in `S.ACC`, before and after the CRCRD,
which answers their CRC (R82, R85 to R87). -/
theorem stepMany_crcStream {s : State} {bs : List Byte} {cinit crd : Command} {cs : List Command}
    {rest : List HostInput} (hp : s.cfg.crcPoly ≠ 0x00#8) (hr : s.inReset = false)
    (hinit : cinit.cmd = encode .crcinit) (hcs : cs.map Command.cmd = bs.map (fun b => encode (.crcb b)))
    (hrd : crd.cmd = encode .crcrd) (hi : s.inputs = .command cinit :: (cs.map .command ++ .command crd :: rest)) :
    ∃ u t, stepMany (bs.length + 1) s = some u ∧ u.acc = crcRegister s.cfg s.cfg.crcInit bs ∧
      stepMany (bs.length + 2) s = some t ∧ t.inputs = rest ∧ t.acc = crcRegister s.cfg s.cfg.crcInit bs ∧
      t.responses.head? = some ⟨.ok, 0#88 ++ crc8 s.cfg bs⟩ := by
  have hstart : step s = exec .crcinit s := step_of_encode hp hr hi hinit
  obtain ⟨u, hrun, hcfg, hur, hui, hacc⟩ :=
    stepMany_crcb bs ((s.writeAcc s.cfg.crcInit).respond .ok 0#96) cs _ hcs hp hr (congrArg List.tail hi)
  have hfed : stepMany (bs.length + 1) s = some u := (stepMany_succ hstart _).trans hrun
  have hcrc : zext96 (crcFinish u.cfg u.acc) = 0#88 ++ crc8 s.cfg bs := by
    rw [zext96_byte, hcfg, hacc]
    rfl
  have hread : step u = .next (u.respond .ok (0#88 ++ crc8 s.cfg bs)) :=
    hcrc ▸ step_of_encode (hcfg ▸ hp) hur hui hrd
  have hdone : stepMany (bs.length + 2) s = some (u.respond .ok (0#88 ++ crc8 s.cfg bs)) := by
    rw [stepMany_add (bs.length + 1) 1, hfed]
    exact stepMany_succ hread 0
  exact ⟨u, _, hfed, hacc, hdone, congrArg List.tail hui, hacc, rfl⟩

/-! ### Pseudo-instructions -/

theorem assemble_crcstr {bs : List Nat} (h : ∀ b ∈ bs, b < 256) : assemble (.crcstr bs) = some (expand (.crcstr bs)) :=
  if_pos (List.all_eq_true.2 fun b hb => decide_eq_true (h b hb))

theorem assemble_crcstr_refused {bs : List Nat} (h : ∃ b ∈ bs, 256 ≤ b) : assemble (.crcstr bs) = none := by
  obtain ⟨b, hb, hwide⟩ := h
  refine if_neg fun hwf => ?_
  have hfits := of_decide_eq_true (List.all_eq_true.1 hwf b hb)
  omega

/-- Settles O24: CRCSTR's words are those of a byte stream, which the CRCRD after them ends.-/
theorem pseudoInstructions : Obligations.PseudoInstructions := by
  refine ⟨fun x => rfl, fun bs hfits => ?_, fun bs => assemble_crcstr_refused, fun bs cs s d rest hcs hp hr hi => ?_⟩
  · have hwords : bs.map (fun b => (⟨encode (.crcb (BitVec.ofNat 8 b)), 0#96⟩ : Command)) =
        bs.map fun b => ⟨BitVec.ofNat 32 (0x03000000 + b), 0#96⟩ :=
      List.map_congr_left fun b hb => by rw [encode_crcb_ofNat (hfits b hb)]
    rw [assemble_crcstr hfits, expand, hwords]
    rfl
  · obtain ⟨-, hexpand⟩ := Option.ite_none_right_eq_some.1 hcs
    cases hexpand
    have hcmds : (bs.map fun b => (⟨encode (.crcb (BitVec.ofNat 8 b)), 0#96⟩ : Command)).map Command.cmd =
        (bs.map (BitVec.ofNat 8)).map fun b => encode (.crcb b) := by simp
    simpa using stepMany_crcStream hp hr rfl hcmds rfl hi

end Sys2Proof.Machine
end

section
/-! PROOFS. The statements of spec/40_checksum_table.md about the table itself: its two loops (R80, R81), its entries as
polynomial remainders (R80), and the default table (R83). -/

namespace Sys2Proof.Machine

/-! ### The loops -/

theorem repeatRounds_eq_iterate (f : Byte → Byte) (k : Nat) : ∀ c, repeatRounds f k c = f^[k] c := by
  induction k with
  | zero => intro c; rfl
  | succ k ih => intro c; exact ih (f c)

/-- `repeat 8 times`, as a loop over a counter it does not read. -/
theorem repeatRounds_eq_foldl (f : Byte → Byte) (k : Nat) (c : Byte) :
    repeatRounds f k c = (List.range k).foldl (fun c _ => f c) c := by
  rw [repeatRounds_eq_iterate, List.foldl_const, List.length_range]

theorem tableEntry_msb {cfg : Config} (h : cfg.crcReflect = false) (i : Byte) :
    tableEntry cfg i = repeatRounds (tableRoundMsb cfg.crcPoly) 8 i := by
  simp [tableEntry, h]

theorem tableEntry_lsb {cfg : Config} (h : cfg.crcReflect = true) (i : Byte) :
    tableEntry cfg i = repeatRounds (tableRoundLsb cfg.crcPoly) 8 i := by
  simp [tableEntry, h]

/-- Bit `i` after a round: bit `i - 1` moved up, and the polynomial's bit where bit 7 fell out (R80). -/
theorem tableRoundMsb_bit (p c : Byte) {i : Nat} (hi : i < 8) :
    (tableRoundMsb p c).getLsbD i = ((decide (0 < i) && c.getLsbD (i - 1)) ^^ (c.getLsbD 7 && p.getLsbD i)) := by
  have hshift : (c <<< 1).getLsbD i = (decide (0 < i) && c.getLsbD (i - 1)) := by
    rw [BitVec.getLsbD_shiftLeft]
    cases i <;> simp [hi]
  unfold tableRoundMsb
  cases h7 : c.getLsbD 7 with
  | true => rw [if_pos rfl, BitVec.getLsbD_xor, hshift, Bool.true_and]
  | false => rw [if_neg Bool.false_ne_true, hshift, Bool.false_and, Bool.xor_false]

/-! ### The bit-reversed form -/

theorem rev8_bit (p : Byte) {j : Nat} (hj : j < 8) : (rev8 p).getLsbD j = p.getLsbD (7 - j) := by
  rw [rev8, BitVec.getLsbD_reverse, BitVec.getMsbD_eq_getLsbD]
  simp [hj]

@[simp] theorem rev8_rev8 (p : Byte) : rev8 (rev8 p) = p := BitVec.reverse_reverse_eq

theorem rev8_xor (a b : Byte) : rev8 (a ^^^ b) = rev8 a ^^^ rev8 b := by
  apply BitVec.eq_of_getLsbD_eq
  intro i hi
  simp only [BitVec.getLsbD_xor, rev8_bit _ hi]

theorem rev8_shiftLeft_one (c : Byte) : rev8 (c <<< 1) = rev8 c >>> 1 := by
  apply BitVec.eq_of_getLsbD_eq
  intro i hi
  rw [rev8_bit _ hi, BitVec.getLsbD_ushiftRight, BitVec.getLsbD_shiftLeft]
  by_cases h : i = 7
  · subst h
    simp [rev8]
  · rw [rev8_bit c (by omega : 1 + i < 8), show 7 - i - 1 = 7 - (1 + i) by omega]
    have hlt : 7 - i < 8 := by omega
    have hge : ¬ 7 - i < 1 := by omega
    simp [hlt, hge]

/-- R81's round is R80's, seen in the mirror. -/
theorem tableRoundLsb_rev8 (p c : Byte) : tableRoundLsb p (rev8 c) = rev8 (tableRoundMsb p c) := by
  unfold tableRoundLsb tableRoundMsb
  rw [rev8_bit c (by omega : 0 < 8)]
  split
  · rw [rev8_xor, rev8_shiftLeft_one]
  · rw [rev8_shiftLeft_one]

/-- Settles O26: the loop is the model's, and `rev8` is the library's reversal read bit by bit. -/
theorem tableReflectedForm : Obligations.TableReflectedForm := by
  refine ⟨fun p j hj => ?_, fun cfg i h => ?_⟩
  · rw [rev8_bit p (by omega), show 7 - (7 - j) = j by omega]
  · rw [tableEntry_lsb h, repeatRounds_eq_foldl]
    rfl

/-! ### Entries as polynomial remainders -/

/-- The product over GF(2) of the polynomials `m` and `q`: the XOR of copies of `m`, one shifted to each term of `q`. -/
def polyProduct (m : BitVec 16) {k : Nat} (q : BitVec k) : BitVec 16 :=
  (List.range k).foldl (fun acc j => if q.getLsbD j = true then acc ^^^ (m <<< j) else acc) 0#16

/-- A leading term `b x^k` adds its shifted copy. -/
theorem polyProduct_cons (m : BitVec 16) {k : Nat} (b : Bool) (q : BitVec k) :
    polyProduct m (BitVec.cons b q) = if b = true then polyProduct m q ^^^ (m <<< k) else polyProduct m q := by
  have hlow : (List.range k).foldl
      (fun acc j => if (BitVec.cons b q).getLsbD j = true then acc ^^^ (m <<< j) else acc) 0#16 = polyProduct m q := by
    refine List.foldl_ext _ _ _ fun acc j hj => ?_
    rw [BitVec.getLsbD_cons, if_neg (Nat.ne_of_lt (List.mem_range.1 hj))]
  rw [polyProduct, List.range_succ, List.foldl_append, hlow]
  simp [BitVec.getLsbD_cons]

/-- Shifting a register by one place: its bit 7 comes out as the term `x^8`. -/
theorem zero_append_shiftLeft_one (c : Byte) :
    (0#8 ++ c : BitVec 16) <<< 1 = (if c.getLsbD 7 = true then 0x01#8 else 0x00#8) ++ c <<< 1 := by
  have hout (j : Nat) :
      (if c.getLsbD 7 = true then 0x01#8 else 0x00#8).getLsbD j = (decide (j = 0) && c.getLsbD 7) := by
    cases c.getLsbD 7 <;> simp [BitVec.getLsbD_one]
  apply BitVec.eq_of_getLsbD_eq
  intro i hi
  rw [BitVec.getLsbD_shiftLeft, BitVec.getLsbD_append, BitVec.getLsbD_append, BitVec.getLsbD_shiftLeft, hout,
    BitVec.getLsbD_zero]
  rcases Nat.lt_trichotomy i 8 with hlt | rfl | hgt
  · simp [hlt, hi, show i - 1 < 8 by omega]
  · simp
  · simp [show ¬ i < 8 by omega, show ¬ i - 1 < 8 by omega, show ¬ i - 8 = 0 by omega]

/-- A round divides by `x^8 + p(x)`: the shifted register is the round's, and the divisor where a term `x^8` came
out. -/
theorem zero_append_shiftLeft_one_eq_round (p c : Byte) : (0#8 ++ c : BitVec 16) <<< 1 =
    (if c.getLsbD 7 = true then (0x01#8 ++ p : BitVec 16) else 0#16) ^^^ (0#8 ++ tableRoundMsb p c : BitVec 16) := by
  rw [zero_append_shiftLeft_one]
  unfold tableRoundMsb
  split
  · rw [BitVec.xor_append, BitVec.xor_comm (c <<< 1) p, ← BitVec.xor_assoc, BitVec.xor_self, BitVec.zero_xor,
      BitVec.xor_zero]
  · rw [BitVec.zero_xor]

/-- Long division: `c(x) * x^k` is a multiple of `x^8 + p(x)`, plus what `k` rounds leave. -/
theorem exists_quotient (p : Byte) (k : Nat) : ∀ c : Byte, ∃ q : BitVec k, (0#8 ++ c : BitVec 16) <<< k =
    polyProduct (0x01#8 ++ p) q ^^^ (0#8 ++ repeatRounds (tableRoundMsb p) k c : BitVec 16) := by
  induction k with
  | zero => intro c; exact ⟨0#0, by simp [polyProduct, repeatRounds]⟩
  | succ k ih =>
    intro c
    obtain ⟨q, hq⟩ := ih (tableRoundMsb p c)
    refine ⟨BitVec.cons (c.getLsbD 7) q, ?_⟩
    have hfirst : (0#8 ++ c : BitVec 16) <<< (k + 1) = (0#8 ++ c : BitVec 16) <<< 1 <<< k := by
      rw [← BitVec.shiftLeft_add, Nat.add_comm k 1]
    rw [hfirst, zero_append_shiftLeft_one_eq_round, BitVec.shiftLeft_xor_distrib, hq, polyProduct_cons, repeatRounds]
    split
    · rw [← BitVec.xor_assoc, BitVec.xor_comm ((0x01#8 ++ p) <<< k)]
    · rw [BitVec.zero_shiftLeft, BitVec.zero_xor]

theorem append_zero_eq_shiftLeft (i : Byte) : (i ++ 0#8 : BitVec 16) = (0#8 ++ i : BitVec 16) <<< 8 := by
  apply BitVec.eq_of_getLsbD_eq
  intro j hj
  rw [BitVec.getLsbD_shiftLeft, BitVec.getLsbD_append, BitVec.getLsbD_append]
  by_cases h : j < 8
  · simp [h]
  · simp [h, hj, show j - 8 < 8 by omega]

/-- Settles O25: the loop is the model's, and its eight rounds are the long division of `i(x) * x^8`. -/
theorem tableIsPolynomialRemainder : Obligations.TableIsPolynomialRemainder := by
  intro cfg i h
  rw [tableEntry_msb h]
  refine ⟨repeatRounds_eq_foldl _ 8 i, ?_⟩
  rw [append_zero_eq_shiftLeft]
  exact exists_quotient cfg.crcPoly 8 i

/-! ### A register that is never cleared -/

/-- `x^t` is the highest power of `x` that divides the polynomial `p`. -/
structure LowestTerm (p : Byte) (t : Nat) : Prop where
  present : p.getLsbD t = true
  below : ∀ i < t, p.getLsbD i = false

theorem exists_lowestTerm {p : Byte} (h : p ≠ 0x00#8) : ∃ t, LowestTerm p t := by
  have hbit : ∃ t, p.getLsbD t = true := by
    by_contra hnone
    refine h (BitVec.eq_of_getLsbD_eq fun i _ => ?_)
    rw [BitVec.getLsbD_zero, Bool.eq_false_iff]
    exact fun hi => hnone ⟨i, hi⟩
  exact ⟨Nat.find hbit, Nat.find_spec hbit, fun i hi => Bool.eq_false_iff.2 (Nat.find_min hbit hi)⟩

/-- A nonzero multiple of `x^t`. -/
structure NonzeroMultiple (t : Nat) (c : Byte) : Prop where
  nonzero : c ≠ 0x00#8
  low : ∀ i < t, c.getLsbD i = false

section
variable {p : Byte} {t : Nat} (hp : LowestTerm p t)
include hp

theorem lowestTerm_multiple : NonzeroMultiple t p where
  nonzero := by
    rintro rfl
    exact absurd hp.present (by simp)
  low := hp.below

/-- A round clears no multiple of `x^t`: bit `t` of the polynomial would stay, as nothing below it is shifted there. -/
theorem tableRoundMsb_nonzero {c : Byte} (hc : NonzeroMultiple t c) : tableRoundMsb p c ≠ 0x00#8 := by
  intro hzero
  have hround {i : Nat} (hi : i < 8) :
      ((decide (0 < i) && c.getLsbD (i - 1)) ^^ (c.getLsbD 7 && p.getLsbD i)) = false := by
    rw [← tableRoundMsb_bit p c hi, hzero, BitVec.getLsbD_zero]
  have ht : t < 8 := BitVec.lt_of_getLsbD hp.present
  have hin : (decide (0 < t) && c.getLsbD (t - 1)) = false := by
    rcases Nat.eq_zero_or_pos t with rfl | hpos
    · rfl
    · rw [hc.low (t - 1) (by omega), Bool.and_false]
  have h7 : c.getLsbD 7 = false := by
    simpa [hin, hp.present] using hround ht
  refine hc.nonzero (BitVec.eq_of_getLsbD_eq fun i hi => ?_)
  rw [BitVec.getLsbD_zero]
  rcases Nat.lt_or_ge i 7 with hlt | hge
  · simpa only [h7, Nat.succ_pos, decide_true, Nat.add_sub_cancel, Bool.true_and, Bool.false_and, Bool.xor_false] using
      hround (i := i + 1) (by omega)
  · rwa [show i = 7 by omega]

theorem tableRoundMsb_multiple {c : Byte} (hc : NonzeroMultiple t c) : NonzeroMultiple t (tableRoundMsb p c) where
  nonzero := tableRoundMsb_nonzero hp hc
  low i hi := by
    have ht : t < 8 := BitVec.lt_of_getLsbD hp.present
    rw [tableRoundMsb_bit p c (by omega), hp.below i hi, hc.low (i - 1) (by omega)]
    simp

theorem iterate_multiple {c : Byte} (hc : NonzeroMultiple t c) (n : Nat) :
    NonzeroMultiple t ((tableRoundMsb p)^[n] c) :=
  Function.Iterate.rec (NonzeroMultiple t) hc (fun _ => tableRoundMsb_multiple hp) n

end

/-- What is left of a power of `x`: a power below `x^8`, or a nonzero multiple of `x^t`. -/
inductive PowerResidue (t : Nat) : Byte → Prop where
  | power {j : Nat} (hj : j < 8) : PowerResidue t (1#8 <<< j)
  | multiple {c : Byte} (hc : NonzeroMultiple t c) : PowerResidue t c

theorem powerResidue_nonzero {t : Nat} {c : Byte} (hc : PowerResidue t c) : c ≠ 0x00#8 := by
  cases hc with
  | power hj =>
    revert hj
    exact (by decide : ∀ j < 8, 1#8 <<< j ≠ 0x00#8) _
  | multiple hc => exact hc.nonzero

/-- `x * x^7` leaves the polynomial itself (R80). -/
theorem tableRoundMsb_top (p : Byte) : tableRoundMsb p (1#8 <<< 7) = p := by
  rw [tableRoundMsb, if_pos (by decide), show (1#8 <<< 7) <<< 1 = 0x00#8 by decide, BitVec.zero_xor]

theorem tableRoundMsb_power (p : Byte) {j : Nat} (hj : j < 7) : tableRoundMsb p (1#8 <<< j) = 1#8 <<< (j + 1) := by
  have h7 : ∀ j < 7, (1#8 <<< j).getLsbD 7 = false := by decide
  rw [tableRoundMsb, h7 j hj, if_neg Bool.false_ne_true, BitVec.shiftLeft_add]

theorem tableRoundMsb_powerResidue {p : Byte} {t : Nat} (hp : LowestTerm p t) {c : Byte} (hc : PowerResidue t c) :
    PowerResidue t (tableRoundMsb p c) := by
  cases hc with
  | @power j hj =>
    by_cases htop : j = 7
    · rw [htop, tableRoundMsb_top]
      exact .multiple (lowestTerm_multiple hp)
    · rw [tableRoundMsb_power p (by omega)]
      exact .power (by omega)
  | multiple hc => exact .multiple (tableRoundMsb_multiple hp hc)

/-- No number of rounds clears a single bit, whatever the polynomial but `0x00`. -/
theorem iterate_power_nonzero {p : Byte} (hp : p ≠ 0x00#8) {j : Nat} (hj : j < 8) (n : Nat) :
    (tableRoundMsb p)^[n] (1#8 <<< j) ≠ 0x00#8 := by
  obtain ⟨t, ht⟩ := exists_lowestTerm hp
  exact powerResidue_nonzero
    (Function.Iterate.rec (PowerResidue t) (.power hj) (fun _ => tableRoundMsb_powerResidue ht) n)

/-! ### Both forms of the table -/

/-- The register of the MSB-first form that stands for `c` in the configured form, and back (R81). -/
def orient (cfg : Config) (c : Byte) : Byte := if cfg.crcReflect then rev8 c else c

theorem orient_eq_zero_iff (cfg : Config) (c : Byte) : orient cfg c = 0x00#8 ↔ c = 0x00#8 := by
  unfold orient
  split
  · exact BitVec.reverse_eq_zero_iff
  · rfl

@[simp] theorem orient_orient (cfg : Config) (c : Byte) : orient cfg (orient cfg c) = c := by
  unfold orient
  split
  · exact rev8_rev8 c
  · rfl

theorem tableRound_orient (cfg : Config) :
    Function.Semiconj (orient cfg) (tableRoundMsb cfg.crcPoly) (tableRound cfg) := by
  intro c
  unfold orient tableRound
  split
  · exact (tableRoundLsb_rev8 _ c).symm
  · rfl

/-- The rounds of the configured form clear a register exactly when the MSB-first rounds clear its counterpart. -/
theorem iterate_tableRound_eq_zero_iff (cfg : Config) (n : Nat) (c : Byte) :
    (tableRound cfg)^[n] c = 0x00#8 ↔ (tableRoundMsb cfg.crcPoly)^[n] (orient cfg c) = 0x00#8 := by
  rw [← orient_eq_zero_iff cfg ((tableRoundMsb cfg.crcPoly)^[n] _), ((tableRound_orient cfg).iterate_right n).eq,
    orient_orient]

theorem orient_power (cfg : Config) {j : Nat} (hj : j < 8) : ∃ i < 8, orient cfg (1#8 <<< j) = 1#8 <<< i := by
  unfold orient
  split
  · exact ⟨7 - j, by omega, (by decide : ∀ j < 8, rev8 (1#8 <<< j) = 1#8 <<< (7 - j)) j hj⟩
  · exact ⟨j, hj, rfl⟩

theorem iterate_tableRound_power_nonzero {cfg : Config} (hp : cfg.crcPoly ≠ 0x00#8) {j : Nat} (hj : j < 8) (n : Nat) :
    (tableRound cfg)^[n] (1#8 <<< j) ≠ 0x00#8 := by
  obtain ⟨i, hi, horient⟩ := orient_power cfg hj
  rw [ne_eq, iterate_tableRound_eq_zero_iff, horient]
  exact iterate_power_nonzero hp hi n

theorem tableEntry_eq_iterate (cfg : Config) : tableEntry cfg = (tableRound cfg)^[8] :=
  funext fun i => (tableEntry_eq_rounds cfg i).trans (repeatRounds_eq_iterate _ 8 i)

/-! ### The default table -/

/-- With a constant term in the polynomial the table is injective, in both forms: no round clears a register. -/
theorem tableEntry_injective {cfg : Config} (hodd : cfg.crcPoly.getLsbD 0 = true) :
    Function.Injective (tableEntry cfg) := by
  intro i j hij
  have hzero : (tableRound cfg)^[8] (i ^^^ j) = 0x00#8 := by
    rw [← tableEntry_eq_iterate, tableEntry_xor, hij, BitVec.xor_self]
  rw [iterate_tableRound_eq_zero_iff] at hzero
  by_contra hne
  have hstart : NonzeroMultiple 0 (orient cfg (i ^^^ j)) :=
    ⟨fun h => hne (BitVec.xor_eq_zero_iff.1 ((orient_eq_zero_iff cfg _).1 h)), nofun⟩
  exact (iterate_multiple ⟨hodd, nofun⟩ hstart 8).nonzero hzero

/-- Settles O28: the sixteen rows are computed; the polynomial has a constant term, so the table is injective, and a
permutation of the finitely many bytes. -/
theorem defaultTableListing : Obligations.DefaultTableListing :=
  have hinj : Function.Injective (tableEntry Config.default) := tableEntry_injective rfl
  ⟨rfl, rfl, rfl, rfl, rfl, rfl, rfl, rfl, rfl, rfl, rfl, rfl, rfl, rfl, rfl, rfl, tableEntry_zero _, rfl,
    fun _ _ hij => hinj hij, Finite.surjective_of_injective hinj⟩

end Sys2Proof.Machine
end

section
/-! PROOFS. The statements of spec/40_checksum_table.md about the CRC function: its loop and its values (R82, R91), and
that it tells sequences apart that differ in one bit (R89). -/

namespace Sys2Proof.Machine

theorem crcRegister_eq_foldl (cfg : Config) (bs : List Byte) :
    ∀ c, crcRegister cfg c bs = bs.foldl (fun c b => tableEntry cfg (c ^^^ b)) c := by
  induction bs with
  | nil => intro c; rfl
  | cons b bs ih => intro c; exact ih _

/-- Bytes 0 to 10 of a 96-bit value, each written out (R40, R45). -/
theorem bytes0to10_eq (v : Data) :
    bytes0to10 v = [v.extractLsb' 88 8, v.extractLsb' 80 8, v.extractLsb' 72 8, v.extractLsb' 64 8, v.extractLsb' 56 8,
      v.extractLsb' 48 8, v.extractLsb' 40 8, v.extractLsb' 32 8, v.extractLsb' 24 8, v.extractLsb' 16 8,
      v.extractLsb' 8 8] := rfl

theorem tableEntry_eq_crc8 {cfg : Config} (hinit : cfg.crcInit = 0x00#8) (hxor : cfg.crcXorOut = 0x00#8) (i : Byte) :
    tableEntry cfg i = crc8 cfg [i] := by
  simp [crc8, crcFinish, hinit, hxor]

/-- One byte of the loop of R82, its table entry known. -/
theorem crcRegister_step {cfg : Config} {c b d : Byte} (h : tableEntry cfg (c ^^^ b) = d) (bs : List Byte) :
    crcRegister cfg c (b :: bs) = crcRegister cfg d bs := by
  rw [crcRegister_cons, h]

/-- The check value of the default parameters (R82), by the register after each byte. -/
theorem crc8_default_check :
    crc8 Config.default [0x31#8, 0x32#8, 0x33#8, 0x34#8, 0x35#8, 0x36#8, 0x37#8, 0x38#8, 0x39#8] = 0xF4#8 :=
  congrArg (crcFinish Config.default) <|
    (crcRegister_step (d := 0x97#8) rfl _).trans <| (crcRegister_step (d := 0x72#8) rfl _).trans <|
    (crcRegister_step (d := 0xC0#8) rfl _).trans <| (crcRegister_step (d := 0xC2#8) rfl _).trans <|
    (crcRegister_step (d := 0xCB#8) rfl _).trans <| (crcRegister_step (d := 0xFD#8) rfl _).trans <|
    (crcRegister_step (d := 0x78#8) rfl _).trans <| (crcRegister_step (d := 0xC7#8) rfl _).trans <|
    crcRegister_step (d := 0xF4#8) rfl _

/-- Settles O27: the register is a left fold; the byte order and the values are computed. -/
theorem crcFunction : Obligations.CrcFunction :=
  ⟨fun cfg bs => congrArg (· ^^^ cfg.crcXorOut) (crcRegister_eq_foldl cfg bs cfg.crcInit),
    fun cfg v => congrArg (crc8 cfg) (bytes0to10_eq v), fun _ i hinit hxor => tableEntry_eq_crc8 hinit hxor i, rfl,
    crc8_default_check⟩

theorem eq_xor_iff {a d : Byte} : a = a ^^^ d ↔ d = 0x00#8 := by
  rw [← BitVec.xor_right_inj (x := d) a, BitVec.xor_zero, eq_comm]

/-- A change `d` of one byte is seen in the CRC by what the rounds of that byte and of those after it leave of `d`. -/
theorem crc8_change_byte_eq_iff (cfg : Config) (pre post : List Byte) (b d : Byte) :
    crc8 cfg (pre ++ b :: post) = crc8 cfg (pre ++ (b ^^^ d) :: post) ↔
      (tableRound cfg)^[8 * (post.length + 1)] d = 0x00#8 := by
  have hchanged (c : Byte) : crcRegister cfg c ((b ^^^ d) :: post) =
      crcRegister cfg c (b :: post) ^^^ (tableRound cfg)^[8 * (post.length + 1)] d := by
    have hmove : c ^^^ (b ^^^ d) = (c ^^^ d) ^^^ b := by ac_rfl
    rw [crcRegister_cons, hmove, ← crcRegister_cons, crcRegister_xor, repeatRounds_eq_iterate, tableEntry_eq_iterate,
      ← Function.iterate_mul, List.length_cons]
  rw [crc8, crc8, crcFinish_inj, crcRegister_append, crcRegister_append, hchanged, eq_xor_iff]

/-- Settles O34: no number of rounds clears a single bit. -/
theorem singleBitChangesCrc : Obligations.SingleBitChangesCrc := by
  intro cfg pre post b j hp hj _
  rw [ne_eq, crc8_change_byte_eq_iff]
  exact iterate_tableRound_power_nonzero hp hj _

end Sys2Proof.Machine
end

section
/-! PROOFS. The statements of spec/40_checksum_table.md about the five commands TLOOK, CRCINIT, CRCB, CRCRD and CRC11
(R84 to R88), and the stream of byte commands beside CRC11 (R90). -/

namespace Sys2Proof.Machine

/-! ### Reserved bits -/

/-- A format N word with a reserved bit set is illegal (R66). -/
theorem decode_formN_reserved {o : Byte} (ho : formatOf o = some .n) {h : Word24} (hne : h ≠ 0#24) :
    decode (o ++ h) = .illegal .reservedBits := by
  refine decode_reserved (fmt := .n) ((opcOf_formW o h).symm ▸ ho) (beq_eq_false_iff_ne.2 ?_)
  rwa [show immOf (o ++ h) = h from immOf_formW o h]

/-- A format B word with a reserved bit set is illegal (R66). -/
theorem decode_formB_reserved {o : Byte} (ho : formatOf o = some .b) {h : BitVec 16} (hne : h ≠ 0#16) (b : Byte) :
    decode (o ++ h ++ b) = .illegal .reservedBits := by
  have hword : (o ++ h ++ b : Word) = formW o (h ++ b) := BitVec.append_assoc
  have himm := immOf_eq_append (formW o (h ++ b))
  rw [immOf_formW, append_eq_append_iff] at himm
  obtain ⟨hreserved, -⟩ := himm
  rw [hword]
  refine decode_reserved (fmt := .b) ((opcOf_formW o (h ++ b)).symm ▸ ho) (beq_eq_false_iff_ne.2 ?_)
  rwa [← hreserved]

/-! ### One equation per command -/

theorem exec_crcinit (s : State) :
    exec .crcinit s = .next { s.answered ⟨.ok, 0#96⟩ with acc := s.cfg.crcInit } := rfl

theorem exec_crcb (b : Byte) (s : State) : exec (.crcb b) s =
    .next { s.answered ⟨.ok, 0#88 ++ (tableEntry s.cfg (s.acc ^^^ b) ^^^ s.cfg.crcXorOut)⟩ with
      acc := tableEntry s.cfg (s.acc ^^^ b) } := by
  rw [← zext96_byte]
  rfl

theorem exec_crcrd (s : State) :
    exec .crcrd s = .next (s.answered ⟨.ok, 0#88 ++ (s.acc ^^^ s.cfg.crcXorOut)⟩) := by
  rw [← zext96_byte]
  rfl

theorem exec_crc11 (s : State) : exec .crc11 s = .next (s.answered ⟨.ok, 0#88 ++ checksum s.cfg s.din⟩) := by
  rw [← zext96_byte]
  rfl

/-- Settles O29: TLOOK's one equation, entry 0 by linearity, and the words of format B. -/
theorem tlookReadsEntry : Obligations.TlookReadsEntry :=
  ⟨exec_tlook, tableEntry_zero, fun idx => decode_encode (.tlook idx),
    fun _ b hne => decode_formB_reserved rfl hne b, rfl⟩

/-- Settles O30: all clauses are read off the one equation of CRCINIT and the decoder's facts. -/
theorem crcinitStartsStream : Obligations.CrcinitStartsStream := by
  refine ⟨exec_crcinit, fun s t u ht hu => ?_, fun cfg => exec_crcinit _, decode_encode .crcinit,
    fun _ hne => decode_formN_reserved rfl hne, fun s hcfg _ => ⟨_, exec_crcinit s, by rw [hcfg]; rfl⟩⟩
  cases (exec_crcinit s).symm.trans ht
  cases (exec_crcinit _).symm.trans hu
  rfl

/-- Settles O31: a byte equal to the accumulator reads entry 0. -/
theorem crcbFeedsByte : Obligations.CrcbFeedsByte := by
  refine ⟨exec_crcb, fun s => ⟨_, exec_crcb s.acc s, ?_⟩, fun b => decode_encode (.crcb b),
    fun _ b hne => decode_formB_reserved rfl hne b, fun s hcfg hacc => ?_⟩
  · rw [BitVec.xor_self]
    exact tableEntry_zero s.cfg
  · rw [exec_crcb, hcfg, hacc]
    rfl

/-- Settles O32: the example is a byte stream, which answers the check value. -/
theorem crcrdReadsStream : Obligations.CrcrdReadsStream := by
  refine ⟨exec_crcrd, fun s t ht => ?_, decode_encode .crcrd, fun _ hne => decode_formN_reserved rfl hne,
    fun s rest hcfg hr hi => ?_⟩
  · cases (exec_crcinit s).symm.trans ht
    rw [exec_crcrd]
    rfl
  · have hp : s.cfg.crcPoly ≠ 0x00#8 := by rw [hcfg]; decide
    obtain ⟨-, t, -, -, hrun, -, -, hresp⟩ := stepMany_crcStream
      (bs := [0x31#8, 0x32#8, 0x33#8, 0x34#8, 0x35#8, 0x36#8, 0x37#8, 0x38#8, 0x39#8]) hp hr rfl rfl rfl hi
    rw [hcfg, crc8_default_check] at hresp
    exact ⟨t, hrun, hresp⟩

/-! ### CRC11 -/

theorem crcRegister_zeros (cfg : Config) (n : Nat) : crcRegister cfg 0x00#8 (List.replicate n 0x00#8) = 0x00#8 := by
  induction n with
  | zero => rfl
  | succ n ih => rw [List.replicate_succ, crcRegister_cons, BitVec.xor_self, tableEntry_zero, ih]

theorem checksum_default_zero : checksum Config.default (0#96 : Data) = 0x00#8 :=
  congrArg (crcFinish Config.default) (crcRegister_zeros Config.default 11)

/-- The example of R88, by the register after each byte. -/
theorem checksum_default_example : checksum Config.default (0x165FF4E04C000000AAAAAA00#96 : Data) = 0xAF#8 :=
  congrArg (crcFinish Config.default) <|
    (crcRegister_step (d := 0x62#8) rfl _).trans <| (crcRegister_step (d := 0xB3#8) rfl _).trans <|
    (crcRegister_step (d := 0xD2#8) rfl _).trans <| (crcRegister_step (d := 0x9E#8) rfl _).trans <|
    (crcRegister_step (d := 0x30#8) rfl _).trans <| (crcRegister_step (d := 0x90#8) rfl _).trans <|
    (crcRegister_step (d := 0xF9#8) rfl _).trans <| (crcRegister_step (d := 0xE1#8) rfl _).trans <|
    (crcRegister_step (d := 0xF6#8) rfl _).trans <| (crcRegister_step (d := 0x93#8) rfl _).trans <|
    crcRegister_step (d := 0xAF#8) rfl _

theorem answerOf_crc11 (s : State) : answerOf (exec .crc11 s) = some ⟨.ok, 0#88 ++ checksum s.cfg s.din⟩ :=
  congrArg answerOf (exec_crc11 s)

/-- Settles O33: CRC11 answers the checksum, which reads bytes 0 to 10 alone. -/
theorem crc11ChecksumsBytes0To10 : Obligations.Crc11ChecksumsBytes0To10 := by
  refine ⟨exec_crc11, fun s u hcfg hdin => ?_, decode_encode .crc11, fun _ hne => decode_formN_reserved rfl hne,
    fun s hcfg hdin => ?_, fun s hcfg hdin => ?_⟩
  · rw [answerOf_crc11, answerOf_crc11, hcfg, checksum_congr u.cfg hdin]
  · rw [answerOf_crc11, hcfg, hdin, checksum_default_zero]
    rfl
  · rw [answerOf_crc11, hcfg, hdin, checksum_default_example]
    rfl

/-! ### The stream and CRC11 -/

/-- CRCB words, each with a `DIN` of its own. -/
def crcbCommands (bs : List Byte) (ds : List Data) : List Command :=
  List.zipWith (fun b d => ⟨encode (.crcb b), d⟩) bs ds

theorem crcbCommands_cmd {bs : List Byte} {ds : List Data} (hlen : ds.length = bs.length) :
    (crcbCommands bs ds).map Command.cmd = bs.map fun b => encode (.crcb b) := by
  refine List.ext_getElem ?_ fun i _ _ => ?_
  · simp [crcbCommands, hlen]
  · simp [crcbCommands]

/-- Settles O35: the stream answers the CRC of its bytes, and CRC11 that of bytes 0 to 10 of `DIN`. -/
theorem streamEqualsCrc11 : Obligations.StreamEqualsCrc11 := by
  intro s u v d0 d12 ds rest hp hr hcfg hdin hlen hi
  have hcs : s.inputs = .command ⟨encode .crcinit, d0⟩ ::
      ((crcbCommands (bytes0to10 v) ds).map .command ++ .command ⟨encode .crcrd, d12⟩ :: rest) := by
    rw [hi, crcbCommands, List.map_zipWith]
    rfl
  obtain ⟨-, t, -, -, hrun, hrest, -, hresp⟩ := stepMany_crcStream hp hr rfl (crcbCommands_cmd hlen) rfl hcs
  refine ⟨t, hrun, hrest, by rw [hresp]; rfl, ?_⟩
  rw [hresp, answerOf_crc11, hcfg, hdin]
  rfl

end Sys2Proof.Machine
end

section
/-! PROOFS. The statements of spec/41_packer.md: SETWID, PACK and RDID (R100 to R102), the fields of a packed identifier
(R103), its acceptance by VALID (R104), and its order (R105). -/

namespace Sys2Proof.Machine

/-! ### The order of packed identifiers -/

/-- The time-word stands above all that is packed below it. -/
theorem packIdentifier_toNat_div (cfg : Config) (tw : TimeWord) (wid : Word24) :
    (packIdentifier cfg tw wid).toNat / 2 ^ 32 = tw.toNat := by
  have hid := (packIdentifier cfg tw wid).isLt
  conv_rhs =>
    rw [← packIdentifier_timeWord cfg tw wid, timeWordOf, BitVec.extractLsb'_toNat, Nat.shiftRight_eq_div_pow]
  omega

theorem packIdentifier_inj (cfg : Config) (wid : Word24) {tw tw' : TimeWord} :
    packIdentifier cfg tw wid = packIdentifier cfg tw' wid ↔ tw = tw' := by
  refine ⟨fun h => ?_, fun h => h ▸ rfl⟩
  rw [← packIdentifier_timeWord cfg tw wid, h, packIdentifier_timeWord]

/-- Different time-words decide the order, being on top; equal ones give equal identifiers, so never a lesser one. -/
theorem packIdentifier_toNat_lt_iff (cfg : Config) (wid : Word24) {tw tw' : TimeWord} :
    (packIdentifier cfg tw wid).toNat < (packIdentifier cfg tw' wid).toNat ↔ tw.toNat < tw'.toNat := by
  constructor
  · intro h
    have hle : tw.toNat ≤ tw'.toNat := by
      rw [← packIdentifier_toNat_div cfg tw wid, ← packIdentifier_toNat_div cfg tw' wid]
      exact Nat.div_le_div_right h.le
    refine lt_of_le_of_ne hle fun heq => ?_
    rw [BitVec.toNat_inj.1 heq] at h
    exact lt_irrefl _ h
  · intro h
    rw [← packIdentifier_toNat_div cfg tw wid, ← packIdentifier_toNat_div cfg tw' wid] at h
    exact Nat.lt_of_div_lt_div h

theorem reachesWithoutReset_cfg {s t : State} (run : ReachesWithoutReset s t) : t.cfg = s.cfg :=
  reachesWithoutReset_keeps (P := fun u => u.cfg = s.cfg) (fun _ _ hu _ last => (step_cfg last).trans hu) run rfl

/-- Settles O41: both PACKs pack under one configuration and one identity, where packed identifiers compare as
their time-words. -/
theorem packedOrderIsTimeWordOrder : Obligations.PackedOrderIsTimeWordOrder := by
  rintro s1 s2 c1 c2 _ _ hw run rfl rfl
  obtain ⟨hw2, hwid⟩ := run_keeps_captured run hw
  refine ⟨_, _, answerOf_pack hw c1, answerOf_pack hw2 c2, ?_⟩
  rw [reachesWithoutReset_cfg run, hwid]
  exact ⟨(packIdentifier_toNat_lt_iff ..).symm, (packIdentifier_inj ..).symm⟩

/-! ### The fields of a packed identifier -/

theorem packIdentifier_timestamp_counter (cfg : Config) (ts : BitVec 52) (c : Byte) (wid : Word24) :
    timestampOf (packIdentifier cfg (packTimeWord ts c) wid) = ts ∧
      counterOf (packIdentifier cfg (packTimeWord ts c) wid) = c := by
  have hfields := timeWordOf_eq_fields (packIdentifier cfg (packTimeWord ts c) wid)
  rw [packIdentifier_timeWord, packTimeWord, append_eq_append_iff, append_eq_append_iff] at hfields
  obtain ⟨⟨-, hts⟩, hc⟩ := hfields
  exact ⟨hts.symm, hc.symm⟩

/-- Settles O39: the identifier is packed from the five fields, one lemma for each. -/
theorem packedFields : Obligations.PackedFields := by
  intro c s hw
  obtain ⟨hts, hc⟩ := packIdentifier_timestamp_counter s.cfg (dinTimestamp s.din) c s.wid
  refine ⟨_, _, exec_pack_packs hw c, rfl, rfl, packIdentifier_version .., hts, hc, packIdentifier_worker .., ?_⟩
  rw [← bytes0to10_eq]
  exact packIdentifier_checksum ..

/-- Settles O40: a packed identifier is well formed, and VALID accepts every well-formed identifier. -/
theorem packedIdentifierPassesValid : Obligations.PackedIdentifierPassesValid := by
  intro c s u id hw hid hcfg hdin
  cases (answerOf_pack hw c).symm.trans hid
  refine exec_valid_of_wellFormed ?_
  rw [hcfg, hdin]
  exact packIdentifier_wellFormed ..

/-! ### SETWID, PACK and RDID -/

theorem withWorker_zero (w : Word24) : withWorker 0#96 w = 0#64 ++ w ++ 0#8 := rfl

/-- Settles O36: SETWID's two cases are its equations, and each of its words is an encoding. -/
theorem setwidCapturesOnce : Obligations.SetwidCapturesOnce :=
  ⟨fun w _ hw => exec_setwid_captures hw w, fun w _ hw => exec_setwid_locked hw w, fun w => decode_encode (.setwid w),
    fun _ => ⟨_, exec_setwid_captures rfl _, rfl, rfl, withWorker_zero _, rfl⟩⟩

/-- Bytes 0 to 10 of the 88-bit `v88` of R101, each written out (R40). -/
theorem bytes0to10_v88 (v88 : BitVec 88) :
    bytes0to10 v88 = [v88.extractLsb' 80 8, v88.extractLsb' 72 8, v88.extractLsb' 64 8, v88.extractLsb' 56 8,
      v88.extractLsb' 48 8, v88.extractLsb' 40 8, v88.extractLsb' 32 8, v88.extractLsb' 24 8, v88.extractLsb' 16 8,
      v88.extractLsb' 8 8, v88.extractLsb' 0 8] := rfl

/-- The example of R101: its bytes 0 to 10 are those of CRC11's example. -/
theorem packIdentifier_default_example :
    packIdentifier Config.default (packTimeWord (dinTimestamp 0x65FF4E04C0000#96) 0x00#8) 0xAAAAAA#24 =
      0x165FF4E04C000000AAAAAAAF#96 := by
  have hv88 : (packTimeWord (dinTimestamp 0x65FF4E04C0000#96) 0x00#8 ++ 0xAAAAAA#24 : BitVec 88) =
      (0x165FF4E04C000000AAAAAA00#96 : Data).extractLsb' 8 88 := rfl
  rw [packIdentifier, hv88, ← checksum_eq_bytes0to10, checksum_default_example]
  rfl

/-- Settles O37: PACK's two cases are its equations; what it answers is a function of parameters, identity, timestamp
and counter, none of which it writes. -/
theorem packAssemblesIdentifier : Obligations.PackAssemblesIdentifier := by
  refine ⟨fun c s hw => ⟨_, _, rfl, rfl, ?_⟩, fun c _ hw => exec_pack_nowid hw c,
    fun c s t hw ht u hcfg hwid hwidv hts => ?_, fun c => decode_encode (.pack c),
    fun _ b hne => decode_formB_reserved rfl hne b, rfl, fun s hcfg hw hwid hdin => ?_⟩
  · rw [← bytes0to10_v88]
    exact exec_pack_packs hw c
  · cases (exec_pack_packs hw c).symm.trans ht
    have hts : dinTimestamp u.din = dinTimestamp s.din := hts
    rw [answerOf_pack (hwidv.trans hw), answerOf_pack hw, hcfg, hwid, hts]
    rfl
  · refine ⟨_, exec_pack_packs hw _, ?_⟩
    rw [hcfg, hwid, hdin, packIdentifier_default_example]
    exact ⟨rfl, rfl⟩

theorem validate_ever {v : Data} (h : versionOf v ≠ Config.version) (cfg : Config) :
    validate cfg Config.idLen v = ⟨.ever, versionDetail (versionOf v)⟩ := by
  simp [validate, h]

/-- An identity alone, or nothing, has version 0. -/
theorem versionOf_identity (w : Word24) : versionOf (0#64 ++ w ++ 0#8) = 0x0#4 := by
  rw [versionOf_eq_timeWord, timeWordOf_packed]
  rfl

theorem exec_valid_of_version_zero {s : State} (h : versionOf s.din = 0x0#4) :
    exec (.valid 12#24) s = .next (s.answered ⟨.ever, 0x100#96⟩) := by
  have hne : versionOf s.din ≠ Config.version := by
    rw [h]
    decide
  have hever : validate s.cfg 12#24 s.din = _ := validate_ever hne s.cfg
  rw [exec_valid, hever, h]
  rfl

/-- Settles O38: a captured identity lands in a zero `S.IDR`, whose version nibble stays 0. -/
theorem rdidReadsIdentifier : Obligations.RdidReadsIdentifier := by
  refine ⟨fun _ => rfl, fun _ => rfl, fun cfg w t ht => ?_, fun s w hdin => ?_, decode_encode .rdid,
    fun _ hne => decode_formN_reserved rfl hne⟩
  · cases (exec_setwid_captures rfl w).symm.trans ht
    rw [← withWorker_zero]
    rfl
  · have hversion : versionOf s.din = 0x0#4 := by
      obtain hdin | hdin := hdin
      · rw [hdin]
        rfl
      · rw [hdin, versionOf_identity]
    rw [exec_valid_of_version_zero hversion]
    rfl

end Sys2Proof.Machine
end

section
/-! PROOFS. The statements of spec/42_validator.md: VALID's checks (R120, R123), the candidate's length (R121), purity
(R122), single-bit corruption (R124) and version rejection (R125). -/

namespace Sys2Proof.Machine

/-! ### The four outcomes of VALID -/

theorem versionDetail_eq_append (o : BitVec 4) : versionDetail o = 0#84 ++ 0x1#4 ++ 0x0#4 ++ o :=
  (versionDetail_eq o).trans BitVec.append_assoc.symm

theorem checksumDetail_eq_append (e o : Byte) : checksumDetail e o = 0#80 ++ e ++ o :=
  (checksumDetail_eq e o).trans BitVec.append_assoc.symm

theorem validate_elen {len : Word24} (h : len ≠ 12#24) (cfg : Config) (v : Data) :
    validate cfg len v = ⟨.elen, 0#72 ++ len⟩ :=
  (if_pos h).trans (congrArg (Response.mk .elen) (lengthDetail_eq len))

theorem validate_ecrc {cfg : Config} {v : Data} (hversion : versionOf v = Config.version)
    (hchecksum : checksum cfg v ≠ checksumOf v) :
    validate cfg Config.idLen v = ⟨.ecrc, checksumDetail (checksum cfg v) (checksumOf v)⟩ := by
  rw [← byteOf_eleven] at hchecksum ⊢
  simp [validate, hversion, hchecksum]

theorem exec_valid_elen {len : Word24} (h : len ≠ 12#24) (s : State) :
    exec (.valid len) s = .next (s.answered ⟨.elen, 0#72 ++ len⟩) := by
  rw [exec_valid, validate_elen h]

theorem exec_valid_ever {s : State} (h : versionOf s.din ≠ 0x1#4) :
    exec (.valid 12#24) s = .next (s.answered ⟨.ever, 0#84 ++ 0x1#4 ++ 0x0#4 ++ versionOf s.din⟩) := by
  rw [← versionDetail_eq_append]
  exact congrArg (fun r => Host.Outcome.next (s.answered r)) (validate_ever h s.cfg)

theorem exec_valid_ecrc {s : State} (hversion : versionOf s.din = 0x1#4)
    (hchecksum : checksum s.cfg s.din ≠ checksumOf s.din) :
    exec (.valid 12#24) s =
      .next (s.answered ⟨.ecrc, 0#80 ++ checksum s.cfg s.din ++ checksumOf s.din⟩) := by
  rw [← checksumDetail_eq_append]
  exact congrArg (fun r => Host.Outcome.next (s.answered r)) (validate_ecrc hversion hchecksum)

/-- Settles O42: each check's failure is one outcome; the example is a wrong checksum under the right version. -/
theorem validChecksCandidate : Obligations.ValidChecksCandidate := by
  refine ⟨fun len s h => exec_valid_elen h s, fun s h => exec_valid_ever h, fun s e hversion he => ?_,
    fun u => decode_encode (.valid u), fun s hcfg hdin => ?_⟩
  · obtain rfl : e = checksum s.cfg s.din := he.trans (congrArg (crc8 s.cfg) (bytes0to10_eq s.din)).symm
    by_cases hchecksum : checksum s.cfg s.din = s.din.extractLsb' 0 8
    · rw [if_pos hchecksum]
      exact exec_valid_of_wellFormed ⟨hversion, hchecksum.symm⟩
    · rw [if_neg hchecksum]
      exact exec_valid_ecrc hversion hchecksum
  · have hexpected : checksum s.cfg s.din = 0xAF#8 := by rw [hcfg, hdin, checksum_default_example]
    have hobserved : checksumOf s.din = 0x00#8 := by rw [hdin]; rfl
    have hversion : versionOf s.din = 0x1#4 := by rw [hdin]; rfl
    rw [exec_valid_ecrc hversion (by rw [hexpected, hobserved]; decide), hexpected, hobserved]
    rfl

/-- Settles O45: one outcome for each of the four cases the checks tell apart in their order. -/
theorem firstFailingCheckIsReported : Obligations.FirstFailingCheckIsReported := by
  intro len s
  by_cases hlen : len = 12#24
  · subst hlen
    by_cases hversion : s.din.extractLsb' 92 4 = 0x1#4
    · by_cases hchecksum : checksum s.cfg s.din = s.din.extractLsb' 0 8
      · exact ⟨_, exec_valid_of_wellFormed ⟨hversion, hchecksum.symm⟩, by simp [hversion, hchecksum]⟩
      · exact ⟨_, exec_valid_ecrc hversion hchecksum, by simp [hversion, hchecksum]⟩
    · exact ⟨_, exec_valid_ever hversion, by simp [hversion]⟩
  · exact ⟨_, exec_valid_elen hlen s, by simp [hlen]⟩

/-! ### The candidate's length -/

theorem presentedLength_toNat (n : Nat) : (presentedLength n).toNat = min n 0xFFFFFF := by
  unfold presentedLength
  split
  case isTrue h => exact (min_eq_right h).symm
  case isFalse h =>
    rw [BitVec.toNat_ofNat, Nat.mod_eq_of_lt (by omega)]
    omega

/-- Saturation never makes a length 12. -/
theorem presentedLength_eq_twelve_iff (n : Nat) : presentedLength n = 12#24 ↔ n = 12 := by
  rw [← BitVec.toNat_inj, presentedLength_toNat, BitVec.toNat_ofNat]
  omega

/-- Settles O43: a length other than 12 is presented as an operand other than 12, which fails the first check. -/
theorem candidateLengthSaturates : Obligations.CandidateLengthSaturates :=
  ⟨presentedLength_toNat, presentedLength_eq_twelve_iff,
    fun n s hn => exec_valid_elen (mt (presentedLength_eq_twelve_iff n).1 hn) s⟩

/-! ### Purity -/

theorem exists_step_of_stepMany_succ {k : Nat} {s t : State} (h : stepMany (k + 1) s = some t) :
    ∃ u, step s = .next u ∧ stepMany k u = some t := by
  rw [stepMany] at h
  cases hs : step s with
  | next u => exact ⟨u, rfl, by rwa [hs] at h⟩
  | fault r => simp [hs] at h
  | refused r => simp [hs] at h

/-- A run's new responses, and all else it does, do not depend on the responses before it. -/
theorem stepMany_ignores_responses (k : Nat) : ∀ {s t : State}, stepMany k s = some t →
    ∃ new, t.responses = new ++ s.responses ∧
      ∀ rs, stepMany k (s.withResponses rs) = some (t.withResponses (new ++ rs)) := by
  induction k with
  | zero =>
    intro s t h
    cases h
    exact ⟨[], rfl, fun _ => rfl⟩
  | succ k ih =>
    intro s t h
    obtain ⟨u, hu, hk⟩ := exists_step_of_stepMany_succ h
    obtain ⟨first, -, hfirst, hstep⟩ := responsesAreCopiesNeverRead s u hu
    obtain ⟨later, hlater, hrun⟩ := ih hk
    refine ⟨later ++ first, by rw [hlater, hfirst, List.append_assoc], fun rs => ?_⟩
    rw [List.append_assoc]
    exact (stepMany_succ (hstep rs) k).trans (hrun (first ++ rs))

/-- Settles O44: a VALID leaves the block as it was but for one response more, which no later step reads. -/
theorem validationIsPure : Obligations.ValidationIsPure := by
  refine ⟨fun s c len rest hp hr hi hd => ?_, fun s u len hcfg hdin => ?_⟩
  · have hstep : step s =
        .next ({ s with inputs := rest }.withResponses (validate s.cfg len s.din :: s.responses)) := by
      rw [step_of_decode hp hr hi hd, exec_valid, State.answered, hi]
      rfl
    refine ⟨validate s.cfg len s.din, fun k t ht => ?_⟩
    obtain ⟨new, hnew, hrun⟩ := stepMany_ignores_responses k ht
    exact ⟨new, hnew, (stepMany_succ hstep k).trans (hrun _)⟩
  · rw [exec_valid, exec_valid, hcfg, hdin]
    rfl

/-! ### A flipped bit -/

/-- The value with bit `j` flipped (R124). -/
def flipBit {n : Nat} (v : BitVec n) (j : Nat) : BitVec n := v ^^^ (1#n <<< j)

theorem flipBit_bit {n : Nat} (v : BitVec n) (j i : Nat) :
    (flipBit v j).getLsbD i = (v.getLsbD i ^^ (decide (j < n) && decide (j = i))) := by
  rw [flipBit, ← BitVec.twoPow_eq, BitVec.getLsbD_xor, BitVec.getLsbD_twoPow]

theorem flipBit_ne {n : Nat} (v : BitVec n) {j : Nat} (hj : j < n) : flipBit v j ≠ v := by
  intro h
  have hbit := flipBit_bit v j j
  rw [h] at hbit
  simp [hj] at hbit

/-- A flip inside a field flips the field's bit. -/
theorem extract_flipBit_inside {n : Nat} (v : BitVec n) {j lo len : Nat} (hlo : lo ≤ j) (hj : j < n) :
    (flipBit v j).extractLsb' lo len = flipBit (v.extractLsb' lo len) (j - lo) := by
  apply BitVec.eq_of_getLsbD_eq
  intro i hi
  have hsame : j = lo + i ↔ j - lo < len ∧ j - lo = i := by omega
  simp only [flipBit_bit, BitVec.getLsbD_extractLsb', hi, hj, hsame, decide_true, Bool.true_and, Bool.decide_and]

/-- A flip outside a field leaves the field. -/
theorem extract_flipBit_outside {n : Nat} (v : BitVec n) {j lo len : Nat} (h : j < lo ∨ lo + len ≤ j) :
    (flipBit v j).extractLsb' lo len = v.extractLsb' lo len := by
  apply BitVec.eq_of_getLsbD_eq
  intro i hi
  have hne : j ≠ lo + i := by omega
  simp [flipBit_bit, hne]

/-- A flip of the version field is seen there. -/
theorem versionOf_flipBit_inside (v : Data) {j : Nat} (hlo : 92 ≤ j) (hj : j < 96) :
    versionOf (flipBit v j) = flipBit (versionOf v) (j - 92) :=
  extract_flipBit_inside v hlo hj

theorem versionOf_flipBit_outside (v : Data) {j : Nat} (hj : j ≤ 91) : versionOf (flipBit v j) = versionOf v :=
  extract_flipBit_outside v (by omega)

theorem checksumOf_flipBit_inside (v : Data) {j : Nat} (hj : j ≤ 7) :
    checksumOf (flipBit v j) = flipBit (checksumOf v) j :=
  extract_flipBit_inside v (Nat.zero_le j) (by omega)

theorem checksumOf_flipBit_outside (v : Data) {j : Nat} (hlo : 8 ≤ j) : checksumOf (flipBit v j) = checksumOf v :=
  extract_flipBit_outside v (by omega)

theorem byteOf_flipBit_other (v : Data) {j k : Nat} (hj : j < 96) (hk : k < 12) (hne : k ≠ 11 - j / 8) :
    byteOf (flipBit v j) k = byteOf v k :=
  extract_flipBit_outside v (by omega)

theorem byteOf_flipBit_same (v : Data) {j : Nat} (hj : j < 96) :
    byteOf (flipBit v j) (11 - j / 8) = flipBit (byteOf v (11 - j / 8)) (j % 8) := by
  have hoffset : j - (96 - 8 - 8 * (11 - j / 8)) = j % 8 := by omega
  rw [byteOf, extract_flipBit_inside v (by omega) hj, hoffset, byteOf]

@[simp] theorem bytes0to10_length {n : Nat} (v : BitVec n) : (bytes0to10 v).length = 11 := by simp [bytes0to10]

@[simp] theorem bytes0to10_getElem {n : Nat} (v : BitVec n) {k : Nat} (hk : k < (bytes0to10 v).length) :
    (bytes0to10 v)[k] = byteOf v k := by simp [bytes0to10]

/-- A flip changes at most one of bytes 0 to 10: none when its place is 11, past the end of the list. -/
theorem bytes0to10_flipBit (v : Data) {j : Nat} (hj : j < 96) :
    bytes0to10 (flipBit v j) =
      (bytes0to10 v).set (11 - j / 8) (flipBit (byteOf v (11 - j / 8)) (j % 8)) := by
  refine List.ext_getElem (by simp) fun k hk _ => ?_
  have hk : k < 12 := by
    rw [bytes0to10_length] at hk
    omega
  rw [List.getElem_set, bytes0to10_getElem, bytes0to10_getElem]
  split
  case isTrue hsame => rw [← hsame, byteOf_flipBit_same v hj]
  case isFalse hother => exact byteOf_flipBit_other v hj hk (Ne.symm hother)

/-- R89 with the changed byte named by its place. -/
theorem crc8_set_flipBit_ne {cfg : Config} (hp : cfg.crcPoly ≠ 0x00#8) {bs : List Byte} (hlen : bs.length = 11)
    {k i : Nat} (hk : k < bs.length) (hi : i < 8) : crc8 cfg (bs.set k (flipBit bs[k] i)) ≠ crc8 cfg bs := by
  have hsplit : bs.take k ++ bs[k] :: bs.drop (k + 1) = bs := by
    rw [List.getElem_cons_drop, List.take_append_drop]
  have hchanged : crc8 cfg _ ≠ crc8 cfg _ :=
    singleBitChangesCrc cfg (bs.take k) (bs.drop (k + 1)) bs[k] i hp hi
      (by rw [List.length_take, List.length_drop]; omega)
  rw [hsplit] at hchanged
  rw [List.set_eq_take_append_cons_drop, if_pos hk]
  exact hchanged.symm

/-- A flip in bytes 0 to 10 changes the checksum (R89). -/
theorem checksum_flipBit_ne {cfg : Config} (hp : cfg.crcPoly ≠ 0x00#8) (v : Data) {j : Nat} (hlo : 8 ≤ j)
    (hj : j < 96) : checksum cfg (flipBit v j) ≠ checksum cfg v := by
  have hk : 11 - j / 8 < (bytes0to10 v).length := by
    rw [bytes0to10_length]
    omega
  rw [checksum, bytes0to10_flipBit v hj, ← bytes0to10_getElem v hk]
  exact crc8_set_flipBit_ne hp (bytes0to10_length v) hk (Nat.mod_lt _ (by decide))

/-- A flip in byte 11 leaves the checksum of the other bytes. -/
theorem checksum_flipBit_eq (cfg : Config) (v : Data) {j : Nat} (hj : j ≤ 7) :
    checksum cfg (flipBit v j) = checksum cfg v :=
  checksum_congr cfg (extract_flipBit_outside v (by omega))

theorem wellFormed_of_valid_ok {s : State} (h : answerOf (exec (.valid 12#24) s) = some ⟨.ok, 0#96⟩) :
    WellFormedId s.cfg s.din := by
  rw [exec_valid] at h
  obtain ⟨hversion, hchecksum⟩ := (validate_ok_iff s.cfg s.din).1 (Option.some.inj h)
  exact ⟨hversion, hchecksum.symm⟩

/-- Settles O46: a flip is seen in exactly one of the version, the computed checksum and the checksum byte. -/
theorem singleBitCorruptionIsCaught : Obligations.SingleBitCorruptionIsCaught := by
  intro s u j hp hcfg hj hok hdin
  obtain ⟨hversion, hchecksum⟩ := wellFormed_of_valid_ok hok
  have hdin : u.din = flipBit s.din j := hdin
  refine ⟨fun hlo => ?_, fun hlo hhi => ?_, fun hhi => ?_⟩
  · have hobserved : versionOf u.din = flipBit 0x1#4 (j - 92) := by
      rw [hdin, versionOf_flipBit_inside _ hlo hj, hversion, Config.version]
    have hwrong : versionOf u.din ≠ 0x1#4 := hobserved ▸ flipBit_ne _ (by omega)
    rw [exec_valid_ever hwrong, hobserved]
    rfl
  · have hkept : versionOf u.din = 0x1#4 := by rw [hdin, versionOf_flipBit_outside _ hhi, hversion, Config.version]
    have hobserved : checksumOf u.din = checksumOf s.din := by rw [hdin, checksumOf_flipBit_outside _ hlo]
    have hwrong : checksum u.cfg u.din ≠ checksumOf s.din := by
      rw [hcfg, hdin, hchecksum]
      exact checksum_flipBit_ne hp _ hlo hj
    refine ⟨checksum u.cfg u.din, hwrong, ?_⟩
    rw [exec_valid_ecrc hkept (hobserved ▸ hwrong), hobserved]
    rfl
  · have hkept : versionOf u.din = 0x1#4 := by
      rw [hdin, versionOf_flipBit_outside _ (by omega), hversion, Config.version]
    have hobserved : checksumOf u.din = flipBit (checksumOf s.din) j := by rw [hdin, checksumOf_flipBit_inside _ hhi]
    have hexpected : checksum u.cfg u.din = checksumOf s.din := by
      rw [hcfg, hdin, checksum_flipBit_eq _ _ hhi, hchecksum]
    have hwrong : checksum u.cfg u.din ≠ checksumOf u.din := by
      rw [hexpected, hobserved]
      exact (flipBit_ne _ (by omega)).symm
    rw [exec_valid_ecrc hkept hwrong, hexpected, hobserved]
    rfl

/-! ### The version -/

theorem versionOf_append (ver : BitVec 4) (body : BitVec 84) (ck : Byte) : versionOf (ver ++ body ++ ck) = ver := by
  rw [versionOf, BitVec.extractLsb'_append_eq_of_le (by omega)]
  exact BitVec.extractLsb'_append_eq_left

/-- Settles O47: the version is checked before the checksum. -/
theorem wrongVersionIsRejected : Obligations.WrongVersionIsRejected := by
  intro s ver body ck hver hdin
  have hobserved : versionOf s.din = ver := by rw [hdin, versionOf_append]
  rw [exec_valid_ever (hobserved ▸ hver), hobserved]

end Sys2Proof.Machine
end

section
/-! PROOFS. The statements of spec/43_system.md: NOP (R140) and illegal command words (R141). -/

namespace Sys2Proof.Machine

theorem exec_nop (s : State) : exec .nop s = .next (s.answered ⟨.ok, 0#96⟩) := rfl

/-- Settles O48: NOP's one equation, and its word with a reserved bit set. -/
theorem nopOnlyAnswers : Obligations.NopOnlyAnswers :=
  ⟨exec_nop, decode_encode .nop, fun _ hne => decode_formN_reserved rfl hne,
    decode_formN_reserved (o := 0x00#8) (h := 0x000001#24) rfl (by decide)⟩

/-- R141's examples: an unassigned opcode, then NOP, CRCRD and PACK with a reserved bit set. -/
theorem decode_illegal_examples :
    ∀ w ∈ [0x06000000#32, 0x00000001#32, 0x04000100#32, 0x11000100#32], ∃ why, decode w = .illegal why := by
  have hnop : decode 0x00000001#32 = .illegal .reservedBits :=
    decode_formN_reserved (o := 0x00#8) (h := 0x000001#24) rfl (by decide)
  have hcrcrd : decode 0x04000100#32 = .illegal .reservedBits :=
    decode_formN_reserved (o := 0x04#8) (h := 0x000100#24) rfl (by decide)
  have hpack : decode 0x11000100#32 = .illegal .reservedBits :=
    decode_formB_reserved (o := 0x11#8) (h := 0x0001#16) rfl (by decide) 0x00#8
  simp only [List.forall_mem_cons]
  exact ⟨⟨_, decode_unassigned rfl⟩, ⟨_, hnop⟩, ⟨_, hcrcrd⟩, ⟨_, hpack⟩, nofun⟩

/-- Settles O49: an illegal word only consumes its command and answers; each example breaks one of R66's two rules. -/
theorem illegalCommandIsAnswered : Obligations.IllegalCommandIsAnswered := by
  refine ⟨fun s w d rest why hp hr hi hd => ?_, decode_illegal_examples⟩
  rw [step_command hp hr hi, runWord_of_illegal hd, respond_eq_consumed hi]

end Sys2Proof.Machine
end

section
/-! PROOFS. The statements of spec/60_exceptions.md: the statuses and who produces each (R150, R153), errors as in-band
responses (R151), PACK with the identity captured (R152), and the block that waits (R159). -/

namespace Sys2Proof.Machine

/-! ### What a command answers -/

/-- The error a command answers, with its cause: none but SETWID, PACK and VALID has one (R150). -/
inductive ErrorAnswer (s : State) : Instr → Response → Prop where
  | locked (w : Word24) (captured : s.widv = true) : ErrorAnswer s (.setwid w) ⟨.locked, 0#96⟩
  | nowid (c : Byte) (fresh : s.widv = false) : ErrorAnswer s (.pack c) ⟨.nowid, 0#96⟩
  | elen (len : Word24) (wrong : len ≠ 12#24) : ErrorAnswer s (.valid len) ⟨.elen, 0#72 ++ len⟩
  | ever (wrong : versionOf s.din ≠ 0x1#4) :
      ErrorAnswer s (.valid 12#24) ⟨.ever, 0#84 ++ 0x1#4 ++ 0x0#4 ++ versionOf s.din⟩
  | ecrc (version : versionOf s.din = 0x1#4) (wrong : checksum s.cfg s.din ≠ checksumOf s.din) :
      ErrorAnswer s (.valid 12#24) ⟨.ecrc, 0#80 ++ checksum s.cfg s.din ++ checksumOf s.din⟩

/-- A command's outcome and the response it answers: OK whatever it writes, or an error and nothing written. -/
inductive CommandAnswer (s : State) (i : Instr) (r : Response) : State → Prop where
  | ok {t : State} (status : r.st = .ok) (returned : t.responses = r :: s.responses) : CommandAnswer s i r t
  | error (cause : ErrorAnswer s i r) : CommandAnswer s i r (s.answered r)

theorem exec_valid_answer (len : Word24) (s : State) :
    ∃ t r, exec (.valid len) s = .next t ∧ CommandAnswer s (.valid len) r t := by
  by_cases hlen : len = 12#24
  · subst hlen
    by_cases hversion : versionOf s.din = 0x1#4
    · by_cases hchecksum : checksum s.cfg s.din = checksumOf s.din
      · exact ⟨_, _, exec_valid_of_wellFormed ⟨hversion, hchecksum.symm⟩, .ok rfl rfl⟩
      · exact ⟨_, _, exec_valid_ecrc hversion hchecksum, .error (.ecrc hversion hchecksum)⟩
    · exact ⟨_, _, exec_valid_ever hversion, .error (.ever hversion)⟩
  · exact ⟨_, _, exec_valid_elen hlen s, .error (.elen len hlen)⟩

theorem exec_answer (i : Instr) (s : State) : ∃ t r, exec i s = .next t ∧ CommandAnswer s i r t := by
  cases i with
  | setwid w =>
    cases hw : s.widv with
    | true => exact ⟨_, _, exec_setwid_locked hw w, .error (.locked w hw)⟩
    | false => exact ⟨_, _, exec_setwid_captures hw w, .ok rfl rfl⟩
  | pack c =>
    cases hw : s.widv with
    | true => exact ⟨_, _, exec_pack_packs hw c, .ok rfl rfl⟩
    | false => exact ⟨_, _, exec_pack_nowid hw c, .error (.nowid c hw)⟩
  | valid len => exact exec_valid_answer len s
  | nop | tlook | crcinit | crcb | crcrd | crc11 | rdid => exact ⟨_, _, rfl, .ok rfl rfl⟩

theorem CommandAnswer.returned_response {s t : State} {i : Instr} {r : Response} (h : CommandAnswer s i r t) :
    t.responses = r :: s.responses := by
  cases h with
  | ok _ returned => exact returned
  | error => rfl

/-- A response returned by a step belongs to the command at the port: its word is illegal, or it is what the decoded
command answers. -/
theorem step_answer {s t : State} {r : Response} (h : step s = .next t) (hr : t.responses = r :: s.responses) :
    ∃ c rest, s.inputs = .command c :: rest ∧
      ((∃ why, decode c.cmd = .illegal why ∧ r = ⟨.illegal, 0#96⟩ ∧ t = s.answered r) ∨
       (∃ i, decode c.cmd = .command i ∧ CommandAnswer s i r t)) := by
  obtain ⟨-, ⟨-, rfl⟩ | ⟨lvl, rest, -, rfl⟩ | ⟨c, rest, -, -, rfl⟩ | ⟨c, rest, why, hi, -, hd, rfl⟩ |
    ⟨c, rest, i, hi, -, hd, he⟩⟩ := step_cases h
  · exact absurd hr List.ne_cons_self
  · cases lvl <;> exact absurd hr List.ne_cons_self
  · exact absurd hr List.ne_cons_self
  · cases hr
    exact ⟨c, rest, hi, .inl ⟨why, hd, rfl, rfl⟩⟩
  · obtain ⟨u, r', hu, ha⟩ := exec_answer i s
    obtain rfl : u = t := Host.Outcome.next.inj (hu.symm.trans he)
    obtain rfl : r' = r := List.head_eq_of_cons_eq (ha.returned_response.symm.trans hr)
    exact ⟨c, rest, hi, .inr ⟨i, hd, ha⟩⟩

/-! ### Statuses -/

theorem Status.code_toNat_lt (st : Status) : st.code.toNat < 7 := by
  cases st <;> decide

/-- Settles O51: every response of a step is one of the causes of `step_answer`, each a row of R150. -/
theorem statusCodes : Obligations.StatusCodes := by
  intro s t r h hr
  obtain ⟨c, rest, hi, hanswer⟩ := step_answer h hr
  refine ⟨c, rest, hi, r.st.code_toNat_lt, ?_⟩
  rw [← State.din_of_command hi]
  obtain ⟨why, hd, rfl, -⟩ | ⟨i, hd, hcommand⟩ := hanswer
  · exact .inr (.inl ⟨rfl, rfl, rfl, why, hd⟩)
  · cases hcommand with
    | ok status => exact .inl ⟨congrArg Status.code status, status, i, hd⟩
    | error cause =>
      cases cause with
      | locked w captured => exact .inr (.inr (.inl ⟨rfl, rfl, rfl, captured, w, hd⟩))
      | nowid b fresh => exact .inr (.inr (.inr (.inl ⟨rfl, rfl, rfl, fresh, b, hd⟩)))
      | elen len => exact .inr (.inr (.inr (.inr (.inl ⟨rfl, rfl, len, hd, rfl⟩))))
      | ever => exact .inr (.inr (.inr (.inr (.inr (.inl ⟨rfl, rfl, ⟨_, hd⟩, rfl⟩)))))
      | ecrc => exact .inr (.inr (.inr (.inr (.inr (.inr ⟨rfl, rfl, ⟨_, hd⟩, rfl⟩)))))

/-- Settles O52: only an OK answer comes with a write, and the parameters that let this step run let the next. -/
theorem errorsChangeNothing : Obligations.ErrorsChangeNothing := by
  intro s t r h hr herror
  have hkept : t = s.answered r := by
    obtain ⟨c, rest, -, ⟨-, -, -, hkept⟩ | ⟨i, -, hcommand⟩⟩ := step_answer h hr
    · exact hkept
    · cases hcommand with
      | ok status => exact absurd status herror
      | error => rfl
  exact ⟨hkept, step_next (step_cfg h ▸ poly_ne_zero_of_step h)⟩

/-- Settles O53: no step without reset clears a captured identity, which is all PACK asks for. -/
theorem capturedPackAlwaysSucceeds : Obligations.CapturedPackAlwaysSucceeds := by
  intro s t c hw run
  obtain ⟨ht, -⟩ := run_keeps_captured run hw
  exact ⟨_, _, exec_pack_packs ht c, rfl⟩

/-- Settles O54: an illegal word reaches no command, and each command's errors are the causes it has. -/
theorem ownStatusesOnly : Obligations.OwnStatusesOnly := by
  refine ⟨fun s c rest why hp hreset hi hd => ?_, fun i s => ?_⟩
  · rw [step_command hp hreset hi, runWord_of_illegal hd]
    rfl
  · obtain ⟨t, r, ht, ha⟩ := exec_answer i s
    refine ⟨r, by rw [ht, answerOf, ha.returned_response, List.head?_cons], ?_⟩
    cases ha with
    | ok status =>
      exact ⟨fun _ _ _ => status, fun _ _ => .inl status, fun _ _ => .inl status, fun _ _ => .inl status⟩
    | error cause =>
      cases cause with
      | locked w => exact ⟨fun hne _ _ => absurd rfl (hne w), fun _ _ => .inr rfl, nofun, nofun⟩
      | nowid c => exact ⟨fun _ hne _ => absurd rfl (hne c), nofun, fun _ _ => .inr rfl, nofun⟩
      | elen len => exact ⟨fun _ _ hne => absurd rfl (hne len), nofun, nofun, fun _ _ => .inr (.inl rfl)⟩
      | ever => exact ⟨fun _ _ hne => absurd rfl (hne _), nofun, nofun, fun _ _ => .inr (.inr (.inl rfl))⟩
      | ecrc => exact ⟨fun _ _ hne => absurd rfl (hne _), nofun, nofun, fun _ _ => .inr (.inr (.inr rfl))⟩

/-! ### Waiting -/

theorem step_idle {s : State} (hp : s.cfg.crcPoly ≠ 0x00#8) (hi : s.inputs = []) : step s = .next s :=
  (step_eq_runPort hp).trans (runPort_idle hi)

/-- Settles O60, by induction on the number of idle steps. -/
theorem idleBlockHoldsState : Obligations.IdleBlockHoldsState := by
  intro s k hp hi
  induction k with
  | zero => rfl
  | succ k ih => exact (stepMany_succ (step_idle hp hi) k).trans ih

end Sys2Proof.Machine
end

section
/-! PROOFS. The statements of spec/70_reset_and_hazards.md: reset and the invariant after it (R170), commands presented
during reset (R172), what reset does to the worker identity (R173, R174), and the absence of hazards (R176). -/

namespace Sys2Proof.Machine

/-! ### Reset -/

theorem step_resetLine {s : State} {lvl : Bool} {rest : List HostInput} (hp : s.cfg.crcPoly ≠ 0x00#8)
    (hi : s.inputs = .resetLine lvl :: rest) : step s = .next (s.driveReset lvl) :=
  (step_eq_runPort hp).trans (runPort_reset hi)

theorem stepMany_two {s t u : State} (first : step s = .next t) (second : step t = .next u) :
    stepMany 2 s = some u :=
  (stepMany_succ first 1).trans (stepMany_succ second 0)

/-- Settles O55: asserting the line writes every element, and releasing it only consumes the input. -/
theorem resetPutsState : Obligations.ResetPutsState := by
  refine ⟨fun s rest hp hi => ?_, fun s rest hp hi => ?_, fun _ => rfl, rfl⟩
  · obtain rfl : s.inputs.tail = rest := congrArg List.tail hi
    exact step_resetLine hp hi
  · have hrelease : (s.driveReset true).inputs = .resetLine false :: rest := congrArg List.tail hi
    obtain rfl : (s.driveReset true).inputs.tail = rest := congrArg List.tail hrelease
    exact stepMany_two (step_resetLine hp hi) (step_resetLine (s := s.driveReset true) hp hrelease)

/-- Settles O7: the reset state meets the invariant with any inputs presented, so also with none. -/
theorem resetMeetsInvariant : Obligations.ResetMeetsInvariant :=
  ⟨resetWith_inv Config.default [], resetWith_inv⟩

theorem step_held {s : State} {c : Command} {rest : List HostInput} (hp : s.cfg.crcPoly ≠ 0x00#8)
    (hr : s.inReset = true) (hi : s.inputs = .command c :: rest) : step s = .next s.takeInput :=
  (step_eq_runPort hp).trans (runPort_held hi hr)

/-- Settles O56, by induction on the commands presented: each is only consumed. -/
theorem noCommandDuringReset : Obligations.NoCommandDuringReset := by
  intro cs
  induction cs with
  | nil =>
    rintro s rest - - rfl
    rfl
  | cons c cs ih =>
    intro s rest hp hr hi
    exact (stepMany_succ (step_held hp hr hi) _).trans (ih s.takeInput rest hp hr (congrArg List.tail hi))

/-! ### Reset and the worker identity -/

theorem step_resets {s t : State} (h : step s = .next t) (resets : s.Resets) : t = s.driveReset true := by
  obtain ⟨rest, hi⟩ := List.head?_eq_some_iff.1 resets
  exact Host.Outcome.next.inj (h.symm.trans (step_resetLine (poly_ne_zero_of_step h) hi))

/-- Settles O57: no step without reset writes a captured identity, and a step that asserts reset clears it. -/
theorem onlyResetClearsIdentity : Obligations.OnlyResetClearsIdentity := by
  refine ⟨fun _ _ hw run => run_keeps_captured run hw, fun s t resets h => ?_⟩
  rw [step_resets h resets, State.assertReset_widv]

/-- Only SETWID captures an identity (R24). -/
theorem step_keeps_uncaptured {s t : State} (h : step s = .next t) (noSetwid : ¬ s.ExecutesSetwid)
    (hw : s.widv = false) : t.widv = false := by
  obtain ⟨-, ⟨-, rfl⟩ | ⟨lvl, rest, -, rfl⟩ | ⟨c, rest, -, -, rfl⟩ | ⟨c, rest, why, -, -, -, rfl⟩ |
    ⟨c, rest, i, hi, hr, hd, he⟩⟩ := step_cases h
  · exact hw
  · cases lvl with
    | true => rfl
    | false => exact hw
  · exact hw
  · exact hw
  · have hother : ∀ w, i ≠ .setwid w := fun w hset => noSetwid ⟨hr, c, rest, w, hi, hset ▸ hd⟩
    obtain ⟨-, hkept⟩ := exec_keeps_wid he hother
    exact hkept.trans hw

theorem run_keeps_uncaptured {s t : State} (run : ReachesWithoutSetwid s t) (hw : s.widv = false) :
    t.widv = false :=
  reachesWithoutSetwid_keeps (fun _ _ hu noSetwid last => step_keeps_uncaptured last noSetwid hu) run hw

/-- After an accepted SETWID and until reset, PACK answers OK with that identity in the worker field (R101, R174). -/
theorem exec_pack_after_setwid {s t u : State} {w : Word24} (fresh : s.widv = false)
    (hset : exec (.setwid w) s = .next t) (run : ReachesWithoutReset t u) (c : Byte) :
    ∃ v id, exec (.pack c) u = .next v ∧ v.responses = ⟨.ok, id⟩ :: u.responses ∧ id.extractLsb' 8 24 = w := by
  cases (exec_setwid_captures fresh w).symm.trans hset
  obtain ⟨hw, hwid⟩ := run_keeps_captured run rfl
  exact ⟨_, _, exec_pack_packs hw c, rfl, (packIdentifier_worker ..).trans hwid⟩

/-- With no identity captured SETWID is accepted, and the others but PACK never ask for one (R153, R174). -/
theorem answer_of_uncaptured {i : Instr} {s : State} (hw : s.widv = false) (hpack : ∀ c, i ≠ .pack c) :
    ∃ r, answerOf (exec i s) = some r ∧ ((∀ len, i ≠ .valid len) → r.st = .ok) ∧
      (∀ len, i = .valid len → r.st = .ok ∨ r.st = .elen ∨ r.st = .ever ∨ r.st = .ecrc) := by
  by_cases hset : ∃ w, i = .setwid w
  · obtain ⟨w, rfl⟩ := hset
    exact ⟨_, congrArg answerOf (exec_setwid_captures hw w), fun _ => rfl, nofun⟩
  · obtain ⟨-, hanswers⟩ := ownStatusesOnly
    obtain ⟨r, hr, hok, -, -, hvalid⟩ := hanswers i s
    exact ⟨r, hr, hok (not_exists.1 hset) hpack, hvalid⟩

/-- Settles O58: an identity comes from SETWID alone and stays until reset; the table, `S.ACC` and the other commands
are ready without one. -/
theorem initialisationOrder : Obligations.InitialisationOrder := by
  refine ⟨fun s t c hw run => ?_, fun cfg ins t c run => ?_, fun s t u w c hw hset run => ?_, fun cfg idx b => ?_,
    fun i s => answer_of_uncaptured⟩
  · have ht := run_keeps_uncaptured run hw
    exact ⟨ht, exec_pack_nowid ht c⟩
  · exact exec_pack_nowid (run_keeps_uncaptured run rfl) c
  · exact exec_pack_after_setwid hw hset run c
  · exact ⟨congrArg answerOf (exec_tlook idx _), congrArg answerOf (exec_crcb b _)⟩

/-! ### The next command sees what the one before wrote -/

/-- Of two commands presented one after the other, the second executes in the state the first one left (R176). -/
theorem stepMany_two_commands {s t u : State} {c c' : Command} {rest : List HostInput} {i j : Instr}
    (hp : s.cfg.crcPoly ≠ 0x00#8) (hr : s.inReset = false) (hi : s.inputs = .command c :: .command c' :: rest)
    (first : exec i s = .next t) (second : exec j t = .next u) (hc : c.cmd = encode i) (hc' : c'.cmd = encode j) :
    stepMany 2 s = some u := by
  obtain ⟨hcfg, hreset, hinputs, -⟩ := exec_frame first
  have hi' : t.inputs = .command c' :: rest := hinputs.trans (congrArg List.tail hi)
  exact stepMany_two ((step_of_encode hp hr hi hc).trans first)
    ((step_of_encode (hcfg ▸ hp) (hreset.trans hr) hi' hc').trans second)

/-- Settles O59: PACK answers from the captured identity, CRCRD from the byte fed. -/
theorem nextCommandSeesEarlierWrites : Obligations.NextCommandSeesEarlierWrites := by
  refine ⟨fun s w c d d' rest hp hr hw hi => ?_, fun s b d d' rest hp hr hi => ?_⟩
  · exact ⟨_, _, stepMany_two_commands hp hr hi (exec_setwid_captures hw w) (exec_pack_packs rfl c) rfl rfl, rfl, rfl,
      packIdentifier_worker ..⟩
  · exact ⟨_, stepMany_two_commands hp hr hi (exec_crcb b s) (exec_crcrd _) rfl rfl, rfl, rfl⟩

end Sys2Proof.Machine
end
